-- ==== Sys2Proof/Word.lean ====
section
/-! DEFINITION. The word types of the CHIP-8 interpreter core and nothing else: bytes (R6, R36), 16-bit words (R21,
R22, R56), register numbers and sprite heights (R57), 12-bit addresses (R57) and keys (R9). -/

namespace Sys2Proof

/-- One byte: a V register (R6), a memory byte (R36), a timer (R10), an immediate NN (R57). -/
abbrev Byte := BitVec 8

/-- 16 bits: an opcode (R56), the pc (R22), the index register (R21), a stack entry (R23). -/
abbrev Word := BitVec 16

/-- A 4-bit field of an opcode: a register number X or Y, or the sprite height N (R57). -/
abbrev Nibble := BitVec 4

/-- The 12-bit field NNN: an absolute memory address (R57). -/
abbrev Addr := BitVec 12

/-- A key of the keypad, 0 to 15 (R9). -/
abbrev Key := Fin 16

/-- Register VF, the flag register (R19). -/
abbrev vf : Nibble := 0xF#4

end Sys2Proof
end

