-- ==== Sys2Proof/Syntax.lean ====
section
/-! DEFINITION. The instructions: one constructor per row of spec/opcode_table.json, with the fields the row gives it
(R58, R60). A field's type is the field's width (R57), so no field can be out of range. -/

namespace Sys2Proof

/-- The 34 instructions of R60, in the order of the opcode table. -/
inductive Instr where
  /-- `00E0` CLS (R100) -/
  | cls
  /-- `00EE` RET (R71) -/
  | ret
  /-- `1NNN` JP nnn (R72) -/
  | jp (nnn : Addr)
  /-- `2NNN` CALL nnn (R73) -/
  | call (nnn : Addr)
  /-- `3XNN` SE Vx, nn (R74) -/
  | seVxNn (x : Nibble) (nn : Byte)
  /-- `4XNN` SNE Vx, nn (R75) -/
  | sneVxNn (x : Nibble) (nn : Byte)
  /-- `5XY0` SE Vx, Vy (R76); the low nibble is ignored (R62) and is no field -/
  | seVxVy (x y : Nibble)
  /-- `6XNN` LD Vx, nn (R81) -/
  | ldVxNn (x : Nibble) (nn : Byte)
  /-- `7XNN` ADD Vx, nn (R82) -/
  | addVxNn (x : Nibble) (nn : Byte)
  /-- `8XY0` LD Vx, Vy (R83) -/
  | ldVxVy (x y : Nibble)
  /-- `8XY1` OR Vx, Vy (R84) -/
  | orVxVy (x y : Nibble)
  /-- `8XY2` AND Vx, Vy (R85) -/
  | andVxVy (x y : Nibble)
  /-- `8XY3` XOR Vx, Vy (R86) -/
  | xorVxVy (x y : Nibble)
  /-- `8XY4` ADD Vx, Vy (R87) -/
  | addVxVy (x y : Nibble)
  /-- `8XY5` SUB Vx, Vy (R88) -/
  | subVxVy (x y : Nibble)
  /-- `8XY6` SHR Vx (R89); Y is encoded and not read -/
  | shrVx (x y : Nibble)
  /-- `8XY7` SUBN Vx, Vy (R90) -/
  | subnVxVy (x y : Nibble)
  /-- `8XYE` SHL Vx (R91); Y is encoded and not read -/
  | shlVx (x y : Nibble)
  /-- `9XY0` SNE Vx, Vy (R77); the low nibble is ignored (R62) and is no field -/
  | sneVxVy (x y : Nibble)
  /-- `ANNN` LD I, nnn (R94) -/
  | ldI (nnn : Addr)
  /-- `BNNN` JP V0, nnn (R78) -/
  | jpV0 (nnn : Addr)
  /-- `CXNN` RND Vx, nn (R92) -/
  | rndVxNn (x : Nibble) (nn : Byte)
  /-- `DXYN` DRW Vx, Vy, n (R101) -/
  | drw (x y n : Nibble)
  /-- `EX9E` SKP Vx (R108) -/
  | skpVx (x : Nibble)
  /-- `EXA1` SKNP Vx (R109) -/
  | sknpVx (x : Nibble)
  /-- `FX07` LD Vx, DT (R105) -/
  | ldVxDt (x : Nibble)
  /-- `FX0A` LD Vx, K (R110) -/
  | ldVxK (x : Nibble)
  /-- `FX15` LD DT, Vx (R106) -/
  | ldDtVx (x : Nibble)
  /-- `FX18` LD ST, Vx (R107) -/
  | ldStVx (x : Nibble)
  /-- `FX1E` ADD I, Vx (R95) -/
  | addIVx (x : Nibble)
  /-- `FX29` LD F, Vx (R96) -/
  | ldFVx (x : Nibble)
  /-- `FX33` LD B, Vx (R97) -/
  | ldBVx (x : Nibble)
  /-- `FX55` LD [I], Vx (R98) -/
  | ldMemVx (x : Nibble)
  /-- `FX65` LD Vx, [I] (R99) -/
  | ldVxMem (x : Nibble)
  deriving DecidableEq, Repr

end Sys2Proof
end

