-- ==== Sys2Proof/WellFormed.lean ====
section
/-! DEFINITION. The checks on terms that come from outside the machine. A field of an instruction has its width in its
type (R57: "A register index can never be out of range"), so every instruction term is well formed and `Instr.wellFormed`
has no case that can fail; what can be ill-formed is a ROM image (R137) and a key number (R9). -/

namespace Sys2Proof

/-- Every term of `Instr` is a well-formed instruction: its field types are the fields' widths (R57, R112). -/
def Instr.wellFormed : Instr → Bool
  | .cls | .ret | .jp _ | .call _ | .seVxNn _ _ | .sneVxNn _ _ | .seVxVy _ _ | .ldVxNn _ _ | .addVxNn _ _ | .ldVxVy _ _
  | .orVxVy _ _ | .andVxVy _ _ | .xorVxVy _ _ | .addVxVy _ _ | .subVxVy _ _ | .shrVx _ _ | .subnVxVy _ _ | .shlVx _ _
  | .sneVxVy _ _ | .ldI _ | .jpV0 _ | .rndVxNn _ _ | .drw _ _ _ | .skpVx _ | .sknpVx _ | .ldVxDt _ | .ldVxK _
  | .ldDtVx _ | .ldStVx _ | .addIVx _ | .ldFVx _ | .ldBVx _ | .ldMemVx _ | .ldVxMem _ => true

/-- The most bytes an image may have: 4096 − 512 = 3584 (R11, R137). -/
def maxImage : Nat := 3584

/-- A ROM image is well formed when it fits the program region (R137). -/
def wellFormedImage (b : List Byte) : Bool := decide (b.length ≤ maxImage)

/-- A byte names a key of the keypad when it is at most 15 (R9, R108). -/
def wellFormedKey (k : Byte) : Bool := decide (k.toNat ≤ 15)

end Sys2Proof
end

