-- ==== Sys2Proof/Decode.lean ====
section
/-! DEFINITION. Decode by dispatch key (R56 to R68) and, after it, the encoder. -/

namespace Sys2Proof

/-! ### Fields (R16, R57) -/

/-- `X = op[11:8]`. -/
def fieldX (op : Word) : Nibble := op.extractLsb' 8 4
/-- `Y = op[7:4]`. -/
def fieldY (op : Word) : Nibble := op.extractLsb' 4 4
/-- `N = op[3:0]`. -/
def fieldN (op : Word) : Nibble := op.extractLsb' 0 4
/-- `NN = op[7:0]`. -/
def fieldNN (op : Word) : Byte := op.extractLsb' 0 8
/-- `NNN = op[11:0]`. -/
def fieldNNN (op : Word) : Addr := op.extractLsb' 0 12
/-- The class nibble `c = op[15:12]` (R56). -/
def fieldC (op : Word) : Nibble := op.extractLsb' 12 4

/-! ### The dispatch key and the handler table -/

/-- The dispatch key of an opcode (R59). -/
def key (op : Word) : Word :=
  match (fieldC op).toNat with
  | 0x0 => op
  | 0x8 => op &&& 0xF00F#16
  | 0xE => op &&& 0xF0FF#16
  | 0xF => op &&& 0xF0FF#16
  | _ => op &&& 0xF000#16

/-- The handler table of R60: each bound key, and the instruction it reads from an opcode's fields. -/
def handlers : List (Word × (Word → Instr)) :=
  [ (0x00E0#16, fun _ => .cls),
    (0x00EE#16, fun _ => .ret),
    (0x1000#16, fun op => .jp (fieldNNN op)),
    (0x2000#16, fun op => .call (fieldNNN op)),
    (0x3000#16, fun op => .seVxNn (fieldX op) (fieldNN op)),
    (0x4000#16, fun op => .sneVxNn (fieldX op) (fieldNN op)),
    (0x5000#16, fun op => .seVxVy (fieldX op) (fieldY op)),
    (0x6000#16, fun op => .ldVxNn (fieldX op) (fieldNN op)),
    (0x7000#16, fun op => .addVxNn (fieldX op) (fieldNN op)),
    (0x8000#16, fun op => .ldVxVy (fieldX op) (fieldY op)),
    (0x8001#16, fun op => .orVxVy (fieldX op) (fieldY op)),
    (0x8002#16, fun op => .andVxVy (fieldX op) (fieldY op)) ] ++
  [ (0x8003#16, fun op => .xorVxVy (fieldX op) (fieldY op)),
    (0x8004#16, fun op => .addVxVy (fieldX op) (fieldY op)),
    (0x8005#16, fun op => .subVxVy (fieldX op) (fieldY op)),
    (0x8006#16, fun op => .shrVx (fieldX op) (fieldY op)),
    (0x8007#16, fun op => .subnVxVy (fieldX op) (fieldY op)),
    (0x800E#16, fun op => .shlVx (fieldX op) (fieldY op)),
    (0x9000#16, fun op => .sneVxVy (fieldX op) (fieldY op)),
    (0xA000#16, fun op => .ldI (fieldNNN op)),
    (0xB000#16, fun op => .jpV0 (fieldNNN op)),
    (0xC000#16, fun op => .rndVxNn (fieldX op) (fieldNN op)),
    (0xD000#16, fun op => .drw (fieldX op) (fieldY op) (fieldN op)) ] ++
  [ (0xE09E#16, fun op => .skpVx (fieldX op)),
    (0xE0A1#16, fun op => .sknpVx (fieldX op)),
    (0xF007#16, fun op => .ldVxDt (fieldX op)),
    (0xF00A#16, fun op => .ldVxK (fieldX op)),
    (0xF015#16, fun op => .ldDtVx (fieldX op)),
    (0xF018#16, fun op => .ldStVx (fieldX op)),
    (0xF01E#16, fun op => .addIVx (fieldX op)),
    (0xF029#16, fun op => .ldFVx (fieldX op)),
    (0xF033#16, fun op => .ldBVx (fieldX op)),
    (0xF055#16, fun op => .ldMemVx (fieldX op)),
    (0xF065#16, fun op => .ldVxMem (fieldX op)) ]

/-- The bound keys, in the table's order (R60). -/
def handlerKeys : List Word := handlers.map (·.1)

/-- Why bytes are no instruction. -/
inductive DecodeError where
  /-- the key of `op` is not in the handler table (R61); the whole opcode is recorded -/
  | unknownOpcode (op : Word)
  /-- fewer than the two bytes every instruction has (R56, R68) -/
  | truncated
  deriving DecidableEq, Repr

/-- Decode one opcode: look its key up, and let the entry read the fields (R59 to R62). -/
def decode (op : Word) : Except DecodeError Instr :=
  match handlers.lookup (key op) with
  | some h => .ok (h op)
  | none => .error (.unknownOpcode op)

/-- Decode the first instruction of a byte sequence, high byte first, and give the rest of it (R43, R56). -/
def decodeBytes : List Byte → Except DecodeError (Instr × List Byte)
  | hi :: lo :: rest =>
    match decode (hi ++ lo) with
    | .ok i => .ok (i, rest)
    | .error e => .error e
  | _ => .error .truncated

/-! ### The encoder (R56, the "Encoding" of each rule, spec/opcode_table.json) -/

/-- The key an instruction is dispatched by (R60). -/
def Instr.handlerKey : Instr → Word
  | .cls => 0x00E0#16
  | .ret => 0x00EE#16
  | .jp _ => 0x1000#16
  | .call _ => 0x2000#16
  | .seVxNn _ _ => 0x3000#16
  | .sneVxNn _ _ => 0x4000#16
  | .seVxVy _ _ => 0x5000#16
  | .ldVxNn _ _ => 0x6000#16
  | .addVxNn _ _ => 0x7000#16
  | .ldVxVy _ _ => 0x8000#16
  | .orVxVy _ _ => 0x8001#16
  | .andVxVy _ _ => 0x8002#16
  | .xorVxVy _ _ => 0x8003#16
  | .addVxVy _ _ => 0x8004#16
  | .subVxVy _ _ => 0x8005#16
  | .shrVx _ _ => 0x8006#16
  | .subnVxVy _ _ => 0x8007#16
  | .shlVx _ _ => 0x800E#16
  | .sneVxVy _ _ => 0x9000#16
  | .ldI _ => 0xA000#16
  | .jpV0 _ => 0xB000#16
  | .rndVxNn _ _ => 0xC000#16
  | .drw _ _ _ => 0xD000#16
  | .skpVx _ => 0xE09E#16
  | .sknpVx _ => 0xE0A1#16
  | .ldVxDt _ => 0xF007#16
  | .ldVxK _ => 0xF00A#16
  | .ldDtVx _ => 0xF015#16
  | .ldStVx _ => 0xF018#16
  | .addIVx _ => 0xF01E#16
  | .ldFVx _ => 0xF029#16
  | .ldBVx _ => 0xF033#16
  | .ldMemVx _ => 0xF055#16
  | .ldVxMem _ => 0xF065#16

/-- The opcode of an instruction. The ignored low nibble of 5XY0 and 9XY0 is written as 0, as the table names them. -/
def encode : Instr → Word
  | .cls => 0x00E0#16
  | .ret => 0x00EE#16
  | .jp nnn => 0x1#4 ++ nnn
  | .call nnn => 0x2#4 ++ nnn
  | .seVxNn x nn => 0x3#4 ++ x ++ nn
  | .sneVxNn x nn => 0x4#4 ++ x ++ nn
  | .seVxVy x y => 0x5#4 ++ x ++ y ++ 0x0#4
  | .ldVxNn x nn => 0x6#4 ++ x ++ nn
  | .addVxNn x nn => 0x7#4 ++ x ++ nn
  | .ldVxVy x y => 0x8#4 ++ x ++ y ++ 0x0#4
  | .orVxVy x y => 0x8#4 ++ x ++ y ++ 0x1#4
  | .andVxVy x y => 0x8#4 ++ x ++ y ++ 0x2#4
  | .xorVxVy x y => 0x8#4 ++ x ++ y ++ 0x3#4
  | .addVxVy x y => 0x8#4 ++ x ++ y ++ 0x4#4
  | .subVxVy x y => 0x8#4 ++ x ++ y ++ 0x5#4
  | .shrVx x y => 0x8#4 ++ x ++ y ++ 0x6#4
  | .subnVxVy x y => 0x8#4 ++ x ++ y ++ 0x7#4
  | .shlVx x y => 0x8#4 ++ x ++ y ++ 0xE#4
  | .sneVxVy x y => 0x9#4 ++ x ++ y ++ 0x0#4
  | .ldI nnn => 0xA#4 ++ nnn
  | .jpV0 nnn => 0xB#4 ++ nnn
  | .rndVxNn x nn => 0xC#4 ++ x ++ nn
  | .drw x y n => 0xD#4 ++ x ++ y ++ n
  | .skpVx x => 0xE#4 ++ x ++ 0x9E#8
  | .sknpVx x => 0xE#4 ++ x ++ 0xA1#8
  | .ldVxDt x => 0xF#4 ++ x ++ 0x07#8
  | .ldVxK x => 0xF#4 ++ x ++ 0x0A#8
  | .ldDtVx x => 0xF#4 ++ x ++ 0x15#8
  | .ldStVx x => 0xF#4 ++ x ++ 0x18#8
  | .addIVx x => 0xF#4 ++ x ++ 0x1E#8
  | .ldFVx x => 0xF#4 ++ x ++ 0x29#8
  | .ldBVx x => 0xF#4 ++ x ++ 0x33#8
  | .ldMemVx x => 0xF#4 ++ x ++ 0x55#8
  | .ldVxMem x => 0xF#4 ++ x ++ 0x65#8

/-- The high byte of an opcode, stored at the lower address (R43). -/
def highByte (op : Word) : Byte := op.extractLsb' 8 8
/-- The low byte of an opcode, stored at the higher address (R43). -/
def lowByte (op : Word) : Byte := op.extractLsb' 0 8

/-- The two bytes of an instruction as memory holds them (R43, R56). -/
def encodeBytes (i : Instr) : List Byte := [highByte (encode i), lowByte (encode i)]

/-- The opcode of an instruction whose low `nbits` bits are those of `w` and whose other bits are 0. Every instruction is
one 16-bit word (R56), so bit `n` of `w` is bit `n` of the opcode. -/
def tableWord (nbits w : Nat) : Word := BitVec.ofNat 16 (w % 2 ^ nbits)

/-- What the decoder reads from the two bytes, high byte first, of the instruction with bits `w`. -/
def decodeTableWord (nbits w : Nat) : Option Instr :=
  match decodeBytes [highByte (tableWord nbits w), lowByte (tableWord nbits w)] with
  | .ok (i, _) => some i
  | .error _ => none

end Sys2Proof
end

