-- ==== Sys2Proof/Config.lean ====
section
/-! DEFINITION. What an implementation or its environment fixes: the parameters VF_WRITE_ORDER (R14) and INIT_MEM (R13)
and the oracles of R15. Each is an opaque constant, so a claim proved about the model holds for every value of it.
The parameter FONT (R12), for which the spec gives a default, is `Machine.Memory.defaultFont`. -/

namespace Sys2Proof

/-- The two values of the OPEN parameter VF_WRITE_ORDER (R14): the order in which 8XY4 to 8XY7 and 8XYE write their
result register and VF. -/
inductive VfWriteOrder where
  | resultThenFlag
  | flagThenResult
  deriving DecidableEq, Repr, Inhabited

/-- One choice of the schedule (R15, R123): which agent's transition comes next. -/
inductive Turn where
  /-- the instruction clock fires: one Step (R64, R124) -/
  | cpu
  /-- the timer clock fires: one Tick (R125) -/
  | tick
  /-- the host delivers key `k` (R111) -/
  | keyDelivered (k : Key)
  /-- the host's cancellation is detected (R127) -/
  | cancel
  deriving DecidableEq, Repr, Inhabited

/-- The parameter VF_WRITE_ORDER (R14, D2): OPEN, one of two values. FREE VALUE, log entry 5. -/
opaque Config.vfWriteOrder : VfWriteOrder

/-- The parameter INIT_MEM (R13, D21): the launch contents of memory outside the font and the image; `initMem a` is the
byte at address `a`. FREE VALUE, log entry 2. -/
opaque Config.initMem : Nat → Byte

/-- The oracle Rand (R15, R92): the answer to the `n`-th draw. FREE VALUE, log entry 4. -/
opaque Config.rand : Nat → Byte

/-- The oracle KeyHeld (R15, R108): the answer to the `n`-th draw, for key `k`. FREE VALUE, log entry 4. -/
opaque Config.keyHeld : Nat → Key → Bool

/-- The schedule (R15, R126): the `n`-th choice of the next transition, the delivered key included. FREE VALUE, log
entry 1. -/
opaque Config.turn : Nat → Turn

end Sys2Proof
end

