-- ==== Sys2Proof/Machine/State.lean ====
section
/-! DEFINITION. The machine's state as plain data (R18 to R31), the reasons a step can stop, and the state after
initialization (R136). -/

namespace Sys2Proof.Machine

/-- The faults of R112, with the information each records. -/
inductive FaultReason where
  /-- code 1: decode found no handler for the key of `op` (R61) -/
  | unknownOpcode (op : Word)
  /-- code 2: an image of `len` bytes does not fit (R137); raised only by Load (R114) -/
  | imageTooLarge (len : Nat)
  /-- code 3: a fetch at an odd pc or at pc > 0xFFE (R43) -/
  | badFetch (pc : Word)
  /-- code 4: the first out-of-range address of an access (R40 to R42) -/
  | memOutOfRange (a : Nat)
  /-- code 5: 2NNN at `pc` with sp = 16 (R24) -/
  | stackOverflow (pc : Word)
  /-- code 6: 00EE at `pc` with sp = 0 (R25) -/
  | stackUnderflow (pc : Word)
  /-- code 7: EX9E or EXA1 with `k` = V[X] > 15 (R108) -/
  | keyOutOfRange (k : Byte)
  deriving DecidableEq, Repr

/-- The run status (R30). -/
inductive Status where
  /-- Steps may occur -/
  | running
  /-- an FX0A with X = `x` is suspended; pc still holds its address -/
  | waitingKey (x : Nibble)
  /-- fault `f` stopped the run (R116) -/
  | faulted (f : FaultReason)
  /-- cancellation ended the run (R127) -/
  | stopped
  deriving DecidableEq, Repr

/-- The entries of the output history (R31). -/
inductive Event where
  | beep
  | clear
  | draw (x y : Byte) (rows : List Byte) (collided : Bool)
  deriving DecidableEq, Repr

/-- Where the next transition's agent comes from. The model's own: the spec has the schedule as an input of the run (R15,
R126), and one deterministic step needs it as data. Log entry 1. -/
inductive Schedule where
  /-- the transitions to come, first first; after the last, only the instruction clock fires -/
  | fixed (turns : List Turn)
  /-- the free schedule: the next choice is `Config.turn n` -/
  | oracle (n : Nat)
  deriving DecidableEq, Repr

/-- Memory (R29, R36): the bytes that differ from what an unlisted address reads as, in rising order of address
(`Memory.wf`). -/
abbrev Memory := List Host.Cell

/-- The framebuffer (R8, R28): `fb[x][y]` is the pixel at column x, row y; true is lit. -/
abbrev Frame := Vector (Vector Bool 32) 64

/-- The register file V0 to VF (R18). -/
abbrev Regs := Vector Byte 16

/-- The complete state of the block (R35): the tuple of R18 to R31, and after it the model's two fields for the oracles
of R15. -/
structure State where
  /-- V0 to VF (R18) -/
  v : Regs
  /-- the index register I (R21) -/
  index : Word
  /-- the program counter (R22) -/
  pc : Word
  /-- the return stack S[0..15] (R23) -/
  stack : Vector Word 16
  /-- the number of live stack entries, 0 to 16 (R23) -/
  sp : Fin 17
  /-- the delay timer DT (R26) -/
  dt : Byte
  /-- the sound timer ST (R27) -/
  st : Byte
  /-- the framebuffer FB (R28) -/
  fb : Frame
  /-- memory M (R29) -/
  mem : Memory
  /-- the run status (R30) -/
  status : Status
  /-- the output history, oldest first (R31) -/
  events : List Event
  /-- the model's own: the schedule (log entry 1) -/
  sched : Schedule
  /-- the model's own: how many draws of Rand and KeyHeld have been answered (log entry 4) -/
  draws : Nat
  deriving DecidableEq, Repr

/-- Why no further step is taken. -/
inductive Fault where
  /-- Raised by `step` when the status is `faulted f`: the run has ended and reports `f` (R117, R134). Safe: the spec
  enables no transition there. -/
  | runFaulted (f : FaultReason)
  /-- Raised by `step` when the status is `stopped`: the run has ended without an error (R127, R134). Safe: the spec
  enables no transition there. -/
  | runStopped
  /-- Raised by `loadImage`: Load raised the fault `f`, which is `imageTooLarge`, and the machine never starts (R112, R114,
  R137). Safe: the spec has no launch state there. -/
  | loadFailed (f : FaultReason)
  deriving DecidableEq, Repr

/-- Why an instruction has no meaning. -/
inductive Refusal where
  /-- Raised by an arm of `exec` whose instruction has no meaning yet. Safe: nothing is claimed of it. No arm raises it:
  every instruction has its meaning. -/
  | notModelled (mnemonic : String)
  deriving DecidableEq, Repr

/-- What an instruction answers. -/
abbrev Result := Host.Outcome State Fault Refusal

/-- The state after initialization (R136): registers, timers, I, sp and the stack 0, pc at 0x200, the display clear with
the initialization's own Clear recorded, running. Memory lists nothing: it is the font and INIT_MEM. -/
def State.reset : State where
  v := Vector.replicate 16 0#8
  index := 0#16
  pc := 0x200#16
  stack := Vector.replicate 16 0#16
  sp := 0
  dt := 0#8
  st := 0#8
  fb := Vector.replicate 64 (Vector.replicate 32 false)
  mem := []
  status := .running
  events := [.clear]
  sched := .oracle 0
  draws := 0

end Sys2Proof.Machine
end

