-- ==== Sys2Proof/Machine/Frame.lean ====
section
/-! DEFINITION. The framebuffer operations (R28) and the sprite engine (R102 to R104). -/

namespace Sys2Proof.Machine

/-- The pixel at column `x`, row `y`; a cell outside the 64×32 grid is not lit (R103). -/
def Frame.pixel (fb : Frame) (x y : Nat) : Bool :=
  if h : x < 64 ∧ y < 32 then fb[x][y] else false

/-- Toggle the pixel at column `x`, row `y`; a cell outside the grid is dropped (R103). -/
def Frame.toggle (fb : Frame) (x y : Nat) : Frame :=
  if h : x < 64 ∧ y < 32 then fb.set x (fb[x].set y (!fb[x][y])) else fb

/-- Every pixel 0: the Display's `clear()` (R100). -/
def Frame.blank : Frame := Vector.replicate 64 (Vector.replicate 32 false)

/-- Sprite bit of column `col` of a row: bit 7 is the leftmost column (R102). -/
def spriteBit (row : Byte) (col : Nat) : Bool := row.getLsbD (7 - col)

/-- One cell of `Blit`: where the sprite bit is set, toggle the pixel, and record a lit pixel turned off (R102, R104). -/
def Frame.blitCell (x0 y : Nat) (row : Byte) (acc : Frame × Bool) (col : Nat) : Frame × Bool :=
  if spriteBit row col then (acc.1.toggle (x0 + col) y, acc.2 || acc.1.pixel (x0 + col) y) else acc

/-- One row of `Blit`: columns 0 to 7 (R102). -/
def Frame.blitRow (x0 y : Nat) (row : Byte) (acc : Frame × Bool) : Frame × Bool :=
  (List.range 8).foldl (Frame.blitCell x0 y row) acc

/-- The rows of `Blit`, from screen row `y` down. -/
def Frame.blitRows (x0 : Nat) : Nat → List Byte → Frame × Bool → Frame × Bool
  | _, [], acc => acc
  | y, row :: rows, acc => Frame.blitRows x0 (y + 1) rows (Frame.blitRow x0 y row acc)

/-- `Blit(x0, y0, rows)`, the Display's `draw`: the new framebuffer, and whether a lit pixel was turned off (R102). -/
def Frame.blit (fb : Frame) (x0 y0 : Nat) (rows : List Byte) : Frame × Bool :=
  Frame.blitRows x0 y0 rows (fb, false)

end Sys2Proof.Machine
end

