-- ==== Sys2Proof/Machine/Memory.lean ====
section
/-! DEFINITION. Memory as a list of cells in one canonical form (R29, R36 to R39, R47): what an unlisted address reads as,
reading and writing bytes, and the form itself. Addresses are naturals here; `Ops.lean` checks them (R40 to R42). -/

namespace Sys2Proof.Machine

/-- The parameter FONT at its default (R12): 16 glyphs of 5 bytes, glyph g at 5*g (R11, R37). Log entry 3. -/
def Memory.defaultFont : List Byte :=
  [ 0xF0, 0x90, 0x90, 0x90, 0xF0,
    0x20, 0x60, 0x20, 0x20, 0x70,
    0xF0, 0x10, 0xF0, 0x80, 0xF0,
    0xF0, 0x10, 0xF0, 0x10, 0xF0 ] ++
  [ 0x90, 0x90, 0xF0, 0x10, 0x10,
    0xF0, 0x80, 0xF0, 0x10, 0xF0,
    0xF0, 0x80, 0xF0, 0x90, 0xF0,
    0xF0, 0x10, 0x20, 0x40, 0x40 ] ++
  [ 0xF0, 0x90, 0xF0, 0x90, 0xF0,
    0xF0, 0x90, 0xF0, 0x10, 0xF0,
    0xF0, 0x90, 0xF0, 0x90, 0x90,
    0xE0, 0x90, 0xE0, 0x90, 0xE0 ] ++
  [ 0xF0, 0x80, 0x80, 0x80, 0xF0,
    0xE0, 0x90, 0x90, 0x90, 0xE0,
    0xF0, 0x80, 0xF0, 0x80, 0xF0,
    0xF0, 0x80, 0xF0, 0x80, 0x80 ]

/-- The launch byte of an address where the spec states one: the font at 0 to 79. Elsewhere the launch byte is the
parameter INIT_MEM and no particular byte (R39). -/
def Memory.launchByte (a : Nat) : Option Byte := Memory.defaultFont[a]?

/-- What an unlisted address reads as (R39): the font, and INIT_MEM elsewhere. -/
def Memory.unlisted (a : Nat) : Byte := (Memory.launchByte a).getD (Config.initMem a)

/-- The listed byte at `a`, if any. -/
def Memory.lookup : Memory → Nat → Option Byte
  | [], _ => none
  | (b, w) :: m, a => if a = b then some w else Memory.lookup m a

/-- The byte memory holds at `a`. -/
def Memory.get (m : Memory) (a : Nat) : Byte := (m.lookup a).getD (Memory.unlisted a)

/-- List `v` at `a`, keeping the order of addresses. -/
def Memory.insert (a : Nat) (v : Byte) : Memory → Memory
  | [] => [(a, v)]
  | (b, w) :: m =>
    if a < b then (a, v) :: (b, w) :: m
    else if a = b then (a, v) :: m
    else (b, w) :: Memory.insert a v m

/-- Write one byte. Writing the launch byte of a font address removes the entry. -/
def Memory.set (m : Memory) (a : Nat) (v : Byte) : Memory :=
  if Memory.launchByte a = some v then m.filter (fun c => c.1 ≠ a) else Memory.insert a v m

/-- Write bytes at ascending addresses from `a` (R46). -/
def Memory.putBytes (m : Memory) : Nat → List Byte → Memory
  | _, [] => m
  | a, b :: bs => Memory.putBytes (m.set a b) (a + 1) bs

/-- Read `n` bytes at ascending addresses from `a` (R46). -/
def Memory.bytes (m : Memory) (a n : Nat) : List Byte := (List.range n).map fun k => m.get (a + k)

/-- The canonical form: addresses strictly rising and in memory (R36), and no entry equal to a launch byte the spec
states. -/
def Memory.wf (m : Memory) : Bool :=
  decide (m.Pairwise fun c d => c.1 < d.1) &&
    m.all fun c => decide (c.1 < 4096) && decide (Memory.launchByte c.1 ≠ some c.2)

end Sys2Proof.Machine
end

