-- ==== Sys2Proof/Machine/Ops.lean ====
section
/-! DEFINITION. The named operations over registers, memory, the stack, the output history and the oracles, and the one
operation that takes a fault. -/

namespace Sys2Proof.Machine

/-! ### Registers, pc and output -/

/-- Read a register (R18). -/
def Regs.read (v : Regs) (x : Nibble) : Byte := v[x.toNat]'x.isLt

/-- Write a register (R18). -/
def Regs.write (v : Regs) (x : Nibble) (b : Byte) : Regs := v.set x.toNat b x.isLt

/-- Write a list of bytes to V[k], V[k+1], … in ascending order (R99). -/
def Regs.writeBlock : Regs → Nat → List Byte → Regs
  | v, _, [] => v
  | v, k, b :: bs => Regs.writeBlock (v.write (BitVec.ofNat 4 k) b) (k + 1) bs

/-- `V[x]` (R17). -/
def State.getV (s : State) (x : Nibble) : Byte := s.v.read x

/-- `V[x] <- b` (R17). -/
def State.setV (s : State) (x : Nibble) (b : Byte) : State := { s with v := s.v.write x b }

/-- `pc <- pc + n` (R22, R65). -/
def State.advance (s : State) (n : Word) : State := { s with pc := s.pc + n }

/-- `emit e` (R17, R31). -/
def State.emit (s : State) (e : Event) : State := { s with events := s.events ++ [e] }

/-! ### Taking a fault -/

/-- Fault entry (R116): nothing changes but the status. There is no handler and no return from a fault (R118, R135), so
no operation undoes this one. -/
def raise (f : FaultReason) (s : State) : Result := .next { s with status := .faulted f }

/-- End a Step that started in `s`: its new state, or the fault it raised (R116). -/
def settle (s : State) : Except FaultReason State → Result
  | .ok t => .next t
  | .error f => raise f s

/-- The fault codes of R112. -/
def faultCode : FaultReason → Nat
  | .unknownOpcode _ => 1
  | .imageTooLarge _ => 2
  | .badFetch _ => 3
  | .memOutOfRange _ => 4
  | .stackOverflow _ => 5
  | .stackUnderflow _ => 6
  | .keyOutOfRange _ => 7

/-- The fault of R112 a stop reports: that of the faulted run or of Load, and none after a cancellation (R114, R115,
R134). -/
def stopReason : Fault → Option FaultReason
  | .runFaulted f => some f
  | .runStopped => none
  | .loadFailed f => some f

/-! ### Memory -/

/-- `CheckRange(a, n)` (R42): the whole range is checked before any access. -/
def checkRange (a n : Nat) : Except FaultReason Unit :=
  if 0 < n ∧ 0xFFF < a + n - 1 then .error (.memOutOfRange (max a 0x1000)) else .ok ()

/-- `MemRead(a, 1)` (R40). -/
def State.memRead (s : State) (a : Nat) : Except FaultReason Byte :=
  if 0xFFF < a then .error (.memOutOfRange a) else .ok (s.mem.get a)

/-- `MemWrite(a, 1, v)` (R41). -/
def State.memWrite (s : State) (a : Nat) (v : Byte) : Except FaultReason State :=
  if 0xFFF < a then .error (.memOutOfRange a) else .ok { s with mem := s.mem.set a v }

/-- Check a range, then read it in ascending order (R42, R46). -/
def State.readRange (s : State) (a n : Nat) : Except FaultReason (List Byte) :=
  (checkRange a n).map fun _ => s.mem.bytes a n

/-- Check a range, then write it in ascending order (R42, R46). -/
def State.writeRange (s : State) (a : Nat) (bs : List Byte) : Except FaultReason State :=
  (checkRange a bs.length).map fun _ => { s with mem := s.mem.putBytes a bs }

/-- `Fetch(pc)` (R43): an even pc at most 0xFFE, and two bytes, high byte first. -/
def State.fetch (s : State) : Except FaultReason Word :=
  if s.pc.toNat % 2 ≠ 0 ∨ 0xFFE < s.pc.toNat then .error (.badFetch s.pc)
  else
    match s.memRead s.pc.toNat, s.memRead (s.pc.toNat + 1) with
    | .ok hi, .ok lo => .ok (hi ++ lo)
    | .error f, _ => .error f
    | _, .error f => .error f

/-! ### The return stack -/

/-- `Push(w)` (R24). -/
def State.push (s : State) (w : Word) : Except FaultReason State :=
  if h : s.sp.val < 16 then
    .ok { s with stack := s.stack.set s.sp.val w h, sp := ⟨s.sp.val + 1, by omega⟩ }
  else .error (.stackOverflow s.pc)

/-- `Pop()` (R25): the popped value and the state after it; the entry keeps its old value. -/
def State.pop (s : State) : Except FaultReason (Word × State) :=
  if h : 0 < s.sp.val then
    .ok (s.stack[s.sp.val - 1]'(by omega), { s with sp := ⟨s.sp.val - 1, by omega⟩ })
  else .error (.stackUnderflow s.pc)

/-! ### Oracle draws -/

/-- `draw Rand()` (R15, R92): the byte, and the state in which the next draw is a fresh one. -/
def State.drawRand (s : State) : Byte × State := (Config.rand s.draws, { s with draws := s.draws + 1 })

/-- `draw KeyHeld(k)` (R15, R108). -/
def State.drawKeyHeld (s : State) (k : Key) : Bool × State :=
  (Config.keyHeld s.draws k, { s with draws := s.draws + 1 })

/-- The schedule's choice of the next transition (R15, R126), and the state in which it has been made. -/
def State.takeTurn (s : State) : Turn × State :=
  match s.sched with
  | .fixed [] => (.cpu, s)
  | .fixed (t :: ts) => (t, { s with sched := .fixed ts })
  | .oracle n => (Config.turn n, { s with sched := .oracle (n + 1) })

end Sys2Proof.Machine
end

