-- ==== Sys2Proof/Machine/Agents.lean ====
section
/-! DEFINITION. The transitions that are no instruction: the timer tick (R125), the host's events (R111, R127), when each
agent's transition is enabled (R123), and Load before the run (R137 to R139). -/

namespace Sys2Proof.Machine

/-- When a transition is enabled (R123). -/
def enabled : Turn → Status → Bool
  | .cpu, .running => true
  | .cpu, .waitingKey _ => false
  | .tick, .running => true
  | .tick, .waitingKey _ => true
  | .keyDelivered _, .running => false
  | .keyDelivered _, .waitingKey _ => true
  | .cancel, .running => true
  | .cancel, .waitingKey _ => true
  | _, .faulted _ => false
  | _, .stopped => false

/-- A timer counts down by one and stays at 0 (R125). -/
def countDown (b : Byte) : Byte := if b.toNat = 0 then b else b - 1#8

/-- `Tick()` (R125): both timers count down, and a nonzero ST beeps once. -/
def State.tick (s : State) : State :=
  let t := { s with dt := countDown s.dt }
  if s.st.toNat = 0 then t else { t.emit .beep with st := countDown s.st }

/-- A key as the byte stored in a register (R111). -/
def keyByte (k : Key) : Byte := BitVec.ofNat 8 k.val

/-- `KeyDelivered(k)` (R111): completes the suspended FX0A. -/
def State.keyDelivered (s : State) (k : Key) : State :=
  match s.status with
  | .waitingKey x => { (s.setV x (keyByte k)).advance 2#16 with status := .running }
  | .running => s
  | .faulted _ => s
  | .stopped => s

/-- `Cancel()` (R127). -/
def State.cancel (s : State) : State := { s with status := .stopped }

/-- `Load`'s one check (R112, R137): an image of more than 3584 bytes raises ImageTooLarge with its length. -/
def checkImage (b : List Byte) : Except FaultReason Unit :=
  if wellFormedImage b then .ok () else .error (.imageTooLarge b.length)

/-- `Load(b)` (R137): the image at 0x200, or Load's fault and no launch state (R114). Used once, on the reset state
(R138). -/
def loadImage (b : List Byte) (s : State) : Result :=
  match checkImage b with
  | .ok _ => .next { s with mem := s.mem.putBytes 512 b }
  | .error f => .fault (.loadFailed f)

/-- The launch state of image `b` (R138, R139): Initialize, then Load. -/
def launch (b : List Byte) : Result := loadImage b State.reset

/-- The reset state with another FONT (R12, R136): the font's bytes at 0 to 79. -/
def State.resetWithFont (font : Vector Byte 80) : State :=
  { State.reset with mem := State.reset.mem.putBytes 0 font.toList }

end Sys2Proof.Machine
end

