-- ==== Sys2Proof/Machine/Flags.lean ====
section
/-! DEFINITION. The flag computations: the result and flag functions of R87 to R91, and `FlagOp`, the common body of the
flag writers (R80). -/

namespace Sys2Proof.Machine

/-- A flag that is exactly 0 or 1 (R19). -/
def flagBit (c : Bool) : Byte := if c then 1#8 else 0#8

/-- 8XY4 (R87): the sum modulo 2^8. -/
def addResult (a b : Byte) : Byte := BitVec.ofNat 8 (a.toNat + b.toNat)
/-- 8XY4 (R87): the carry, bit 8 of the unsigned sum (R93). -/
def addFlag (a b : Byte) : Byte := flagBit (decide (255 < a.toNat + b.toNat))

/-- 8XY5 (R88): a − b modulo 2^8. -/
def subResult (a b : Byte) : Byte := BitVec.ofInt 8 ((a.toNat : Int) - b.toNat)
/-- 8XY5 (R88): 1 when there is no borrow. -/
def subFlag (a b : Byte) : Byte := flagBit (decide (b.toNat ≤ a.toNat))

/-- 8XY6 (R89): a shifted right by one. -/
def shrResult (a _b : Byte) : Byte := a >>> 1
/-- 8XY6 (R89): the bit shifted out. -/
def shrFlag (a _b : Byte) : Byte := a &&& 0x01#8

/-- 8XY7 (R90): b − a modulo 2^8. -/
def subnResult (a b : Byte) : Byte := BitVec.ofInt 8 ((b.toNat : Int) - a.toNat)
/-- 8XY7 (R90): 1 when there is no borrow. -/
def subnFlag (a b : Byte) : Byte := flagBit (decide (a.toNat ≤ b.toNat))

/-- 8XYE (R91): a shifted left by one, modulo 2^8. -/
def shlResult (a _b : Byte) : Byte := a <<< 1
/-- 8XYE (R91): the raw masked byte, 0x00 or 0x80, not normalised. -/
def shlFlag (a _b : Byte) : Byte := a &&& 0x80#8

/-- The two register writes of `FlagOp` under each write order (R80). The flag is computed from the values before any
write. -/
def flagWrites (order : VfWriteOrder) (x y : Nibble) (r f : Byte → Byte → Byte) (v : Regs) : Regs :=
  match order with
  | .resultThenFlag => (v.write x (r (v.read x) (v.read y))).write vf (f (v.read x) (v.read y))
  | .flagThenResult =>
    let w := v.write vf (f (v.read x) (v.read y))
    w.write x (r (w.read x) (w.read y))

/-- `FlagOp(X, Y, r, f)` under one write order (R80). -/
def flagOp (order : VfWriteOrder) (x y : Nibble) (r f : Byte → Byte → Byte) (s : State) : State :=
  { s with v := flagWrites order x y r f s.v }.advance 2#16

/-- The write order an instruction is run with. The OPEN parameter is visible only when X = F or Y = F (R14): with neither,
both orders give the same state (R80), and the parameter is not consulted. -/
def flagOrder (x y : Nibble) : VfWriteOrder :=
  if x = vf ∨ y = vf then Config.vfWriteOrder else .resultThenFlag

end Sys2Proof.Machine
end

