-- ==== Sys2Proof/Machine/Operands.lean ====
section
/-! DEFINITION. The operand forms of R58: NNN as an address, the index register as the address of a transfer, the
registers V0 to VX as a block, and a register as a key number. -/

namespace Sys2Proof.Machine

/-- NNN as an address: zero-extended to 16 bits (R57). -/
def addrOf (nnn : Addr) : Word := nnn.setWidth 16

/-- NNN + V0, the target of the indexed jump: 16 bits, not masked (R78). -/
def State.indexedTarget (s : State) (nnn : Addr) : Word := addrOf nnn + (s.getV 0).setWidth 16

/-- The address of byte 0 of a transfer or a sprite: I (R46). -/
def State.transferAddr (s : State) : Nat := s.index.toNat

/-- V0 to VX, in ascending order (R98). -/
def State.regsUpTo (s : State) (x : Nibble) : List Byte :=
  (List.range (x.toNat + 1)).map fun k => s.getV (BitVec.ofNat 4 k)

/-- The key number in V[x], which must be at most 15 (R108). -/
def State.keyOf (s : State) (x : Nibble) : Except FaultReason Key :=
  if h : (s.getV x).toNat < 16 then .ok ⟨(s.getV x).toNat, h⟩ else .error (.keyOutOfRange (s.getV x))

/-- A skip: +4 when the condition holds, +2 when not (R65, R74). -/
def State.skipIf (s : State) (c : Bool) : State := s.advance (if c then 4#16 else 2#16)

/-- The hundreds, tens and ones of a byte (R97). -/
def bcdDigits (b : Byte) : List Byte :=
  [BitVec.ofNat 8 (b.toNat / 100), BitVec.ofNat 8 (b.toNat / 10 % 10), BitVec.ofNat 8 (b.toNat % 10)]

end Sys2Proof.Machine
end

