-- ==== Sys2Proof/Machine/Alu.lean ====
section
/-! DEFINITION. Register loads and the ALU (R81 to R92). Operands are read before any write (R79). -/

namespace Sys2Proof.Machine

/-- `V[X] <- b; pc <- pc + 2`, the end of every instruction here that writes no flag. -/
def State.putReg (s : State) (x : Nibble) (b : Byte) : State := (s.setV x b).advance 2#16

/-- `6XNN` LD Vx, nn (R81). -/
def execLdVxNn (x : Nibble) (nn : Byte) (s : State) : Result := .next (s.putReg x nn)

/-- `7XNN` ADD Vx, nn (R82): no flag is written. -/
def execAddVxNn (x : Nibble) (nn : Byte) (s : State) : Result :=
  .next (s.putReg x (BitVec.ofNat 8 ((s.getV x).toNat + nn.toNat)))

/-- `8XY0` LD Vx, Vy (R83). -/
def execLdVxVy (x y : Nibble) (s : State) : Result := .next (s.putReg x (s.getV y))

/-- `8XY1` OR Vx, Vy (R84). -/
def execOrVxVy (x y : Nibble) (s : State) : Result := .next (s.putReg x (s.getV x ||| s.getV y))

/-- `8XY2` AND Vx, Vy (R85). -/
def execAndVxVy (x y : Nibble) (s : State) : Result := .next (s.putReg x (s.getV x &&& s.getV y))

/-- `8XY3` XOR Vx, Vy (R86). -/
def execXorVxVy (x y : Nibble) (s : State) : Result := .next (s.putReg x (s.getV x ^^^ s.getV y))

/-- `8XY4` ADD Vx, Vy (R87). -/
def execAddVxVy (x y : Nibble) (s : State) : Result :=
  .next (flagOp (flagOrder x y) x y addResult addFlag s)

/-- `8XY5` SUB Vx, Vy (R88). -/
def execSubVxVy (x y : Nibble) (s : State) : Result :=
  .next (flagOp (flagOrder x y) x y subResult subFlag s)

/-- `8XY6` SHR Vx (R89): shifts V[X]; Y selects no operand of the result. -/
def execShrVx (x y : Nibble) (s : State) : Result :=
  .next (flagOp (flagOrder x y) x y shrResult shrFlag s)

/-- `8XY7` SUBN Vx, Vy (R90). -/
def execSubnVxVy (x y : Nibble) (s : State) : Result :=
  .next (flagOp (flagOrder x y) x y subnResult subnFlag s)

/-- `8XYE` SHL Vx (R91): shifts V[X]; Y selects no operand of the result. -/
def execShlVx (x y : Nibble) (s : State) : Result :=
  .next (flagOp (flagOrder x y) x y shlResult shlFlag s)

/-- `CXNN` RND Vx, nn (R92): a fresh draw, masked. -/
def execRndVxNn (x : Nibble) (nn : Byte) (s : State) : Result :=
  .next (s.drawRand.2.putReg x (s.drawRand.1 &&& nn))

end Sys2Proof.Machine
end

