-- ==== Sys2Proof/Machine/Control.lean ====
section
/-! DEFINITION. Control transfer and skips (R71 to R78). A target is not checked when it is written: the next fetch
checks it (R22, R43). -/

namespace Sys2Proof.Machine

/-- `00EE` RET (R71). -/
def execRet (s : State) : Result :=
  settle s (s.pop.map fun p => { p.2 with pc := p.1 + 2#16 })

/-- `1NNN` JP nnn (R72). -/
def execJp (nnn : Addr) (s : State) : Result := .next { s with pc := addrOf nnn }

/-- `2NNN` CALL nnn (R73): pushes the CALL's own address. -/
def execCall (nnn : Addr) (s : State) : Result :=
  settle s ((s.push s.pc).map fun t => { t with pc := addrOf nnn })

/-- `3XNN` SE Vx, nn (R74). -/
def execSeVxNn (x : Nibble) (nn : Byte) (s : State) : Result := .next (s.skipIf (s.getV x == nn))

/-- `4XNN` SNE Vx, nn (R75). -/
def execSneVxNn (x : Nibble) (nn : Byte) (s : State) : Result := .next (s.skipIf (s.getV x != nn))

/-- `5XY0` SE Vx, Vy (R76). -/
def execSeVxVy (x y : Nibble) (s : State) : Result := .next (s.skipIf (s.getV x == s.getV y))

/-- `9XY0` SNE Vx, Vy (R77). -/
def execSneVxVy (x y : Nibble) (s : State) : Result := .next (s.skipIf (s.getV x != s.getV y))

/-- `BNNN` JP V0, nnn (R78). -/
def execJpV0 (nnn : Addr) (s : State) : Result := .next { s with pc := s.indexedTarget nnn }

end Sys2Proof.Machine
end

