-- ==== Sys2Proof/Machine/Display.lean ====
section
/-! DEFINITION. The display instructions (R100, R101). Each call of the Display is recorded in the output history
(R31, R129). -/

namespace Sys2Proof.Machine

/-- `00E0` CLS (R100). -/
def execCls (s : State) : Result :=
  .next (({ s with fb := Frame.blank }.emit .clear).advance 2#16)

/-- The effect of DXYN once its rows are read (R101): the blit, VF and the record of the call. The coordinates are the
old V[X] and V[Y] (R79). -/
def State.drawSprite (s : State) (x0 y0 : Byte) (rows : List Byte) : State :=
  let b := s.fb.blit x0.toNat y0.toNat rows
  ((({ s with fb := b.1 }).setV vf (flagBit b.2)).emit (.draw x0 y0 rows b.2)).advance 2#16

/-- `DXYN` DRW Vx, Vy, n (R101): all N rows are read, so checked, before clipping. -/
def execDrw (x y n : Nibble) (s : State) : Result :=
  settle s ((s.readRange s.transferAddr n.toNat).map fun rows => s.drawSprite (s.getV x) (s.getV y) rows)

end Sys2Proof.Machine
end

