-- ==== Sys2Proof/Machine/Index.lean ====
section
/-! DEFINITION. The index register and memory transfers (R94 to R99). No transfer changes I. -/

namespace Sys2Proof.Machine

/-- `I <- a; pc <- pc + 2`. -/
def State.putIndex (s : State) (a : Word) : State := { s with index := a }.advance 2#16

/-- `ANNN` LD I, nnn (R94). -/
def execLdI (nnn : Addr) (s : State) : Result := .next (s.putIndex (addrOf nnn))

/-- `FX1E` ADD I, Vx (R95): wraps at 12 bits; no flag is written. -/
def execAddIVx (x : Nibble) (s : State) : Result :=
  .next (s.putIndex (BitVec.ofNat 16 ((s.index.toNat + (s.getV x).toNat) % 4096)))

/-- `FX29` LD F, Vx (R96): the glyph number is not masked. -/
def execLdFVx (x : Nibble) (s : State) : Result :=
  .next (s.putIndex (BitVec.ofNat 16 (5 * (s.getV x).toNat)))

/-- `FX33` LD B, Vx (R97). -/
def execLdBVx (x : Nibble) (s : State) : Result :=
  settle s ((s.writeRange s.transferAddr (bcdDigits (s.getV x))).map (·.advance 2#16))

/-- `FX55` LD [I], Vx (R98). -/
def execLdMemVx (x : Nibble) (s : State) : Result :=
  settle s ((s.writeRange s.transferAddr (s.regsUpTo x)).map (·.advance 2#16))

/-- `FX65` LD Vx, [I] (R99). -/
def execLdVxMem (x : Nibble) (s : State) : Result :=
  settle s ((s.readRange s.transferAddr (x.toNat + 1)).map fun bs => { s with v := s.v.writeBlock 0 bs }.advance 2#16)

end Sys2Proof.Machine
end

