-- ==== Sys2Proof/Machine/TimersInput.lean ====
section
/-! DEFINITION. Timer access and keypad input (R105 to R110). FX0A completes by the host's event (R111, in
`Agents.lean`). -/

namespace Sys2Proof.Machine

/-- `FX07` LD Vx, DT (R105). -/
def execLdVxDt (x : Nibble) (s : State) : Result := .next ((s.setV x s.dt).advance 2#16)

/-- `FX15` LD DT, Vx (R106). -/
def execLdDtVx (x : Nibble) (s : State) : Result := .next ({ s with dt := s.getV x }.advance 2#16)

/-- `FX18` LD ST, Vx (R107). -/
def execLdStVx (x : Nibble) (s : State) : Result := .next ({ s with st := s.getV x }.advance 2#16)

/-- `EX9E` SKP Vx (R108): the answer of KeyHeld is a free draw. -/
def execSkpVx (x : Nibble) (s : State) : Result :=
  settle s ((s.keyOf x).map fun k => (s.drawKeyHeld k).2.skipIf (s.drawKeyHeld k).1)

/-- `EXA1` SKNP Vx (R109). -/
def execSknpVx (x : Nibble) (s : State) : Result :=
  settle s ((s.keyOf x).map fun k => (s.drawKeyHeld k).2.skipIf (!(s.drawKeyHeld k).1))

/-- `FX0A` LD Vx, K (R110): the Step suspends; pc and the registers stay. -/
def execLdVxK (x : Nibble) (s : State) : Result := .next { s with status := .waitingKey x }

end Sys2Proof.Machine
end

