-- ==== Sys2Proof/Machine/Cycle.lean ====
section
/-! DEFINITION. The Step of the instruction clock (R64) and the transition of each agent (R123). -/

namespace Sys2Proof.Machine

/-- `Step()` (R64, R120): fetch, then decode, then execute; the first check that fails is the fault. -/
def cpuStep (s : State) : Result :=
  match s.fetch with
  | .error f => raise f s
  | .ok op =>
    match decode op with
    | .error _ => raise (.unknownOpcode op) s
    | .ok i => exec i s

/-- The transition of the agent whose turn it is (R123). -/
def transition (t : Turn) (s : State) : Result :=
  match t with
  | .cpu => cpuStep s
  | .tick => .next s.tick
  | .keyDelivered k => .next (s.keyDelivered k)
  | .cancel => .next s.cancel

/-- One turn of the schedule: the chosen transition if it is enabled (R123); a choice that is not enabled is no
transition and changes nothing but the schedule. -/
def turnStep (s : State) : Result :=
  if enabled s.takeTurn.1 s.status then transition s.takeTurn.1 s.takeTurn.2 else .next s.takeTurn.2

/-- One step of the machine: a turn of the schedule, until the run has ended (R117, R127, R128). -/
def machineStep (s : State) : Result :=
  match s.status with
  | .running => turnStep s
  | .waitingKey _ => turnStep s
  | .faulted f => .fault (.runFaulted f)
  | .stopped => .fault .runStopped

/-- Store an opcode at the pc, high byte first (R43), if it lies in memory, and let the instruction clock be next. -/
def State.placeOpcode (s : State) (op : Word) : State :=
  match s.writeRange s.pc.toNat [highByte op, lowByte op] with
  | .ok t => { t with sched := .fixed [] }
  | .error _ => { s with sched := .fixed [] }

end Sys2Proof.Machine
end

