-- ==== Sys2Proof/Machine/Step.lean ====
section
/-! DEFINITION. The step function of the machine, and the placing of one instruction where the next step fetches. -/

namespace Sys2Proof.Machine

/-- One step (R123): a transition of the instruction clock, the timer clock or the host. -/
def step (s : State) : Host.Outcome State Fault Refusal := machineStep s

/-- The state with the instruction of bits `w` stored where the next step fetches, and the instruction clock next
(log entry 8). -/
def State.withFetchWord (s : State) (nbits w : Nat) : State := s.placeOpcode (tableWord nbits w)

end Sys2Proof.Machine
end

