-- ==== Sys2Proof/Safety.lean ====
section
/-! DEFINITION. The terms claims are stated in: what an instruction may write, the invariant of the machine, the end of a
run and what it reports, and runs with the fairness of R126. -/

namespace Sys2Proof

/-! ### What an instruction may write -/

/-- The registers an instruction may write in its Step, per its rule (R19, R81 to R92, R99, R101, R105). -/
def Instr.mayWrite : Instr → Nibble → Bool
  | .ldVxNn x _, z => z == x
  | .addVxNn x _, z => z == x
  | .ldVxVy x _, z => z == x
  | .orVxVy x _, z => z == x
  | .andVxVy x _, z => z == x
  | .xorVxVy x _, z => z == x
  | .addVxVy x _, z => z == x || z == vf
  | .subVxVy x _, z => z == x || z == vf
  | .shrVx x _, z => z == x || z == vf
  | .subnVxVy x _, z => z == x || z == vf
  | .shlVx x _, z => z == x || z == vf
  | .rndVxNn x _, z => z == x
  | .drw _ _ _, z => z == vf
  | .ldVxDt x, z => z == x
  | .ldVxMem x, z => decide (z.toNat ≤ x.toNat)
  | .cls, _ => false
  | .ret, _ => false
  | .jp _, _ => false
  | .call _, _ => false
  | .seVxNn _ _, _ => false
  | .sneVxNn _ _, _ => false
  | .seVxVy _ _, _ => false
  | .sneVxVy _ _, _ => false
  | .ldI _, _ => false
  | .jpV0 _, _ => false
  | .skpVx _, _ => false
  | .sknpVx _, _ => false
  | .ldVxK _, _ => false
  | .ldDtVx _, _ => false
  | .ldStVx _, _ => false
  | .addIVx _, _ => false
  | .ldFVx _, _ => false
  | .ldBVx _, _ => false
  | .ldMemVx _, _ => false

/-- How many bytes an instruction stores, from address I up (R46): 3 for FX33, X + 1 for FX55, none for the others. -/
def Instr.storeLength : Instr → Nat
  | .ldBVx _ => 3
  | .ldMemVx x => x.toNat + 1
  | .cls | .ret | .jp _ | .call _ | .seVxNn _ _ | .sneVxNn _ _ | .seVxVy _ _ | .ldVxNn _ _ | .addVxNn _ _ | .ldVxVy _ _
  | .orVxVy _ _ | .andVxVy _ _ | .xorVxVy _ _ | .addVxVy _ _ | .subVxVy _ _ | .shrVx _ _ | .subnVxVy _ _ | .shlVx _ _
  | .sneVxVy _ _ | .ldI _ | .jpV0 _ | .rndVxNn _ _ | .drw _ _ _ | .skpVx _ | .sknpVx _ | .ldVxDt _ | .ldVxK _
  | .ldDtVx _ | .ldStVx _ | .addIVx _ | .ldFVx _ | .ldVxMem _ => 0

namespace Machine

/-! ### The sprite's cells -/

/-- The sprite `rows` at (x0, y0) has a set bit at column `x`, row `y` (R102). -/
def spriteCovers (x0 y0 : Nat) (rows : List Byte) (x y : Nat) : Bool :=
  decide (x0 ≤ x ∧ x < x0 + 8 ∧ y0 ≤ y) && (rows.getD (y - y0) 0#8).getLsbD (7 - (x - x0))

/-! ### The invariant -/

/-- A pc at which a fetch succeeds (R43). -/
def Fetchable (pc : Word) : Prop := pc.toNat % 2 = 0 ∧ pc.toNat ≤ 0xFFE

/-- What holds of every reachable state: the canonical form of memory, the ranges of I and of the pc (R21, R22, R34), the
live stack entries (R23, R34), and the pc of a suspended FX0A (R30). -/
structure Inv (s : State) : Prop where
  memory : s.mem.wf = true
  index : s.index.toNat ≤ 0xFFF
  pc : s.pc.toNat ≤ 0x10FE
  stack : ∀ (k : Nat) (h : k < 16), k < s.sp.val → Fetchable s.stack[k]
  waiting : ∀ x, s.status = .waitingKey x → Fetchable s.pc

/-! ### Ticks, the end of a run, and runs -/

/-- `n` timer ticks with no other transition between them (R125). -/
def ticks : Nat → State → State
  | 0, s => s
  | n + 1, s => ticks n s.tick

/-- The run has ended (R128). -/
def Status.ended : Status → Bool
  | .running => false
  | .waitingKey _ => false
  | .faulted _ => true
  | .stopped => true

/-- What an ended run reports to its caller (R134): the fault, or no error; nothing while it goes on. -/
def Status.report : Status → Option (Option FaultReason)
  | .running => none
  | .waitingKey _ => none
  | .faulted f => some (some f)
  | .stopped => some none

/-- Change the next state of an outcome, and leave a stop as it is. -/
def mapNext (g : State → State) : Result → Result
  | .next t => .next (g t)
  | .fault f => .fault f
  | .refused r => .refused r

/-- An endless run: each state's step gives the next state (R126). -/
def IsRun (run : Nat → State) : Prop := ∀ n, step (run n) = .next (run (n + 1))

/-- The weak fairness of R126: a CPU that stays running takes its Step, and ticks occur again and again. A claim that needs
either takes this as its premise (log entry 1). -/
def WeaklyFair (run : Nat → State) : Prop :=
  (∀ n, (∀ m, n ≤ m → (run m).status = .running) → ∃ m, n ≤ m ∧ (run m).takeTurn.1 = .cpu) ∧
    ∀ n, ∃ m, n ≤ m ∧ (run m).takeTurn.1 = .tick

end Machine

end Sys2Proof
end

