-- ==== Sys2Proof/Certificates/Slice0/Obligations.lean ====
section
/-! DEFINITION. The statements for the provers. Each docstring names the rule of spec/ it formalises. -/

open Sys2Proof Sys2Proof.Machine

/-! ### Encoding and decode -/

/-- R56, R57: the opcode of an instruction decodes to it, every field at every value, and as two bytes, high byte first. -/
def Obligations.DecodeOfEncodeIsTheInstruction : Prop :=
  ∀ (i : Instr) (rest : List Byte),
    decode (encode i) = .ok i ∧ decodeBytes (encodeBytes i ++ rest) = .ok (i, rest)

/-- R62: no handler ignores a bit of the opcode, but for the low nibble of classes 5 and 9. -/
def Obligations.EncodeOfDecodeKeepsEveryUsedBit : Prop :=
  ∀ (op : Word) (i : Instr), decode op = .ok i →
    encode i = if op.toNat / 4096 = 5 ∨ op.toNat / 4096 = 9 then op &&& 0xFFF0#16 else op

/-- R59: the dispatch key, class by class, and the source's example. -/
def Obligations.DispatchKeyMasksByClass : Prop :=
  (∀ op : Word,
    (op.toNat / 4096 = 0x0 → key op = op) ∧
    (op.toNat / 4096 = 0x8 → key op = op &&& 0xF00F#16) ∧
    (op.toNat / 4096 = 0xE ∨ op.toNat / 4096 = 0xF → key op = op &&& 0xF0FF#16) ∧
    (op.toNat / 4096 ≠ 0x0 ∧ op.toNat / 4096 ≠ 0x8 ∧ op.toNat / 4096 ≠ 0xE ∧ op.toNat / 4096 ≠ 0xF →
      key op = op &&& 0xF000#16)) ∧
  key 0x8AB4#16 = 0x8004#16 ∧ key 0x8CD4#16 = 0x8004#16

/-- R60, R66: one word of each family, written out from its encoding. -/
def Obligations.WordsOfTheTableDecode : Prop :=
  decode 0x00E0#16 = .ok .cls ∧ decode 0x00EE#16 = .ok .ret ∧
  decode 0x1234#16 = .ok (.jp 0x234#12) ∧ decode 0x2ABC#16 = .ok (.call 0xABC#12) ∧
  decode 0x3A7F#16 = .ok (.seVxNn 0xA#4 0x7F#8) ∧ decode 0x512F#16 = .ok (.seVxVy 0x1#4 0x2#4) ∧
  decode 0x6A05#16 = .ok (.ldVxNn 0xA#4 0x05#8) ∧ decode 0x8CD4#16 = .ok (.addVxVy 0xC#4 0xD#4) ∧
  decode 0x8CDE#16 = .ok (.shlVx 0xC#4 0xD#4) ∧ decode 0xA123#16 = .ok (.ldI 0x123#12) ∧
  decode 0xD23F#16 = .ok (.drw 0x2#4 0x3#4 0xF#4) ∧ decode 0xE59E#16 = .ok (.skpVx 0x5#4) ∧
  decode 0xF30A#16 = .ok (.ldVxK 0x3#4) ∧ decode 0xF265#16 = .ok (.ldVxMem 0x2#4) ∧
  decode 0x0000#16 = .error (.unknownOpcode 0x0000#16) ∧ decode 0x8128#16 = .error (.unknownOpcode 0x8128#16)

/-- R61: an opcode is refused exactly when its key is none of the 34 bound keys of R60, and a Step that fetches one takes
UnknownOpcode with the whole opcode. -/
def Obligations.UnboundKeyRaisesUnknownOpcode : Prop :=
  handlerKeys =
    [0x00E0, 0x00EE, 0x1000, 0x2000, 0x3000, 0x4000, 0x5000, 0x6000, 0x7000, 0x8000, 0x8001, 0x8002, 0x8003, 0x8004,
     0x8005, 0x8006, 0x8007, 0x800E, 0x9000, 0xA000, 0xB000, 0xC000, 0xD000, 0xE09E, 0xE0A1, 0xF007, 0xF00A, 0xF015,
     0xF018, 0xF01E, 0xF029, 0xF033, 0xF055, 0xF065] ∧
  (∀ op : Word, key op ∉ handlerKeys ↔ decode op = .error (.unknownOpcode op)) ∧
  (∀ op : Word, key op ∈ handlerKeys ↔ ∃ i, decode op = .ok i) ∧
  ∀ (s : State) (op : Word), s.fetch = .ok op → key op ∉ handlerKeys →
    cpuStep s = .next { s with status := .faulted (.unknownOpcode op) }

/-! ### The Step -/

/-- R43: the fetch reads two bytes, high byte first, at an even pc of at most 0xFFE; any other pc is BadFetch, before
anything is decoded. -/
def Obligations.FetchIsCheckedAndBigEndian : Prop :=
  ∀ s : State,
    (s.pc.toNat % 2 = 0 → s.pc.toNat ≤ 0xFFE →
      ∃ op : Word, s.fetch = .ok op ∧
        op.toNat = 256 * (s.mem.get s.pc.toNat).toNat + (s.mem.get (s.pc.toNat + 1)).toNat) ∧
    (s.pc.toNat % 2 ≠ 0 ∨ 0xFFE < s.pc.toNat →
      s.fetch = .error (.badFetch s.pc) ∧ cpuStep s = .next { s with status := .faulted (.badFetch s.pc) })

/-- R64: when it is the instruction clock's turn in a running state and the two bytes at a fetchable pc decode to `i`, the
step is `exec i`; around it only the schedule moves on. -/
def Obligations.StepRunsTheDecodedInstruction : Prop :=
  ∀ (s : State) (i : Instr), s.status = .running → s.takeTurn.1 = .cpu →
    s.pc.toNat % 2 = 0 → s.pc.toNat ≤ 0xFFE →
    decodeBytes [s.mem.get s.pc.toNat, s.mem.get (s.pc.toNat + 1)] = .ok (i, []) →
    step s = exec i { s with sched := s.takeTurn.2.sched }

/-- R117 (after a fault) and R127 (after a cancellation): an ended run takes no further step; what it reports is R134's.
That `step` says so by answering `runFaulted` and `runStopped` is the model's reading, DEDUCED (log entry 6). -/
def Obligations.EndedRunTakesNoStep : Prop :=
  ∀ s : State,
    (∀ f, s.status = .faulted f → step s = .fault (.runFaulted f)) ∧
    (s.status = .stopped → step s = .fault .runStopped)

/-- R116: a step that ends in a fault changes nothing but the status (and the model's own schedule). -/
def Obligations.FaultEntryIsPrecise : Prop :=
  ∀ (s t : State) (f : FaultReason), step s = .next t → t.status = .faulted f →
    s.status = .running ∧ t = { s with status := .faulted f, sched := s.takeTurn.2.sched }

/-- R113, R112: the only instructions that can fault in their handler, when, and with what record. -/
def Obligations.OnlyTheListedInstructionsFault : Prop :=
  ∀ (i : Instr) (s t : State) (f : FaultReason),
    s.status = .running → exec i s = .next t → t.status = .faulted f →
    (i = .ret ∧ s.sp.val = 0 ∧ f = .stackUnderflow s.pc) ∨
    (∃ nnn, i = .call nnn ∧ s.sp.val = 16 ∧ f = .stackOverflow s.pc) ∨
    (∃ x y n, i = .drw x y n ∧ 0 < n.toNat ∧ 4096 < s.index.toNat + n.toNat ∧
      f = .memOutOfRange (max s.index.toNat 0x1000)) ∨
    (∃ x, i = .ldBVx x ∧ 4096 < s.index.toNat + 3 ∧ f = .memOutOfRange (max s.index.toNat 0x1000)) ∨
    (∃ x, (i = .ldMemVx x ∨ i = .ldVxMem x) ∧ 4096 < s.index.toNat + (x.toNat + 1) ∧
      f = .memOutOfRange (max s.index.toNat 0x1000)) ∨
    (∃ x, (i = .skpVx x ∨ i = .sknpVx x) ∧ 15 < (s.getV x).toNat ∧ f = .keyOutOfRange (s.getV x))

/-! ### Invariants -/

/-- R34, R22: every step from a state that meets the invariant gives a state that meets it. -/
def Obligations.InvariantKeptByEveryStep : Prop :=
  ∀ s t : State, Inv s → step s = .next t → Inv t

/-- The invariant holds after initialization. -/
def Obligations.InvariantHoldsAfterReset : Prop := Inv State.reset

/-! ### Frames over all instructions -/

/-- R18, R19: an instruction changes no register but those its rule names. -/
def Obligations.RegisterFrameOfEveryInstruction : Prop :=
  ∀ (i : Instr) (s t : State) (z : Nibble), exec i s = .next t → i.mayWrite z = false → t.getV z = s.getV z

/-- R46: an instruction changes no byte of memory but those it stores, from address I up. -/
def Obligations.MemoryFrameOfEveryInstruction : Prop :=
  ∀ (i : Instr) (s t : State) (a : Nat), exec i s = .next t →
    ¬ (s.transferAddr ≤ a ∧ a < s.transferAddr + i.storeLength) → t.mem.get a = s.mem.get a

/-- R21, R23, R26, R27: only ANNN, FX1E and FX29 change I, only FX15 changes DT, only FX18 changes ST, and only 2NNN and
00EE touch the stack. -/
def Obligations.SpecialRegisterFrameOfEveryInstruction : Prop :=
  ∀ (i : Instr) (s t : State), exec i s = .next t →
    ((∀ nnn, i ≠ .ldI nnn) → (∀ x, i ≠ .addIVx x) → (∀ x, i ≠ .ldFVx x) → t.index = s.index) ∧
    ((∀ x, i ≠ .ldDtVx x) → t.dt = s.dt) ∧
    ((∀ x, i ≠ .ldStVx x) → t.st = s.st) ∧
    ((∀ nnn, i ≠ .call nnn) → t.stack = s.stack) ∧
    ((∀ nnn, i ≠ .call nnn) → i ≠ .ret → t.sp = s.sp)

/-- R28, R31, R33: only 00E0 and DXYN change the framebuffer and the output history; the status changes only by FX0A or
by a fault; the schedule is no instruction's. -/
def Obligations.OutputAndStatusFrameOfEveryInstruction : Prop :=
  ∀ (i : Instr) (s t : State), exec i s = .next t →
    (i ≠ .cls → (∀ x y n, i ≠ .drw x y n) → t.fb = s.fb ∧ t.events = s.events) ∧
    ((∀ x, i ≠ .ldVxK x) → t.status = s.status ∨ ∃ f, t.status = .faulted f) ∧
    t.sched = s.sched

/-! ### Control transfer and skips -/

/-- R71: RET resumes at the popped address plus 2, or underflows. -/
def Obligations.ReturnResumesAfterTheCall : Prop :=
  decode 0x00EE#16 = .ok .ret ∧
  ∀ s : State,
    (∀ (k : Nat) (hk : k < 16), s.sp.val = k + 1 →
      exec .ret s = .next { s with sp := ⟨k, by omega⟩, pc := s.stack[k] + 2#16 }) ∧
    (s.sp.val = 0 → exec .ret s = .next { s with status := .faulted (.stackUnderflow s.pc) })

/-- R72: JP. -/
def Obligations.JumpGoesToNnn : Prop :=
  ∀ nnn : Addr, decode (0x1#4 ++ nnn) = .ok (.jp nnn) ∧
    ∀ s : State, exec (.jp nnn) s = .next { s with pc := BitVec.ofNat 16 nnn.toNat }

/-- R73: CALL pushes its own address, or overflows. -/
def Obligations.CallPushesItsOwnAddress : Prop :=
  ∀ nnn : Addr, decode (0x2#4 ++ nnn) = .ok (.call nnn) ∧
    ∀ s : State,
      (∀ (k : Nat) (hk : k < 16), s.sp.val = k →
        exec (.call nnn) s = .next
          { s with stack := s.stack.set k s.pc, sp := ⟨k + 1, by omega⟩, pc := BitVec.ofNat 16 nnn.toNat }) ∧
      (s.sp.val = 16 → exec (.call nnn) s = .next { s with status := .faulted (.stackOverflow s.pc) })

/-- R74, R75: the skips on an immediate. -/
def Obligations.SkipsOnAnImmediate : Prop :=
  ∀ (x : Nibble) (nn : Byte) (s : State),
    decode (0x3#4 ++ x ++ nn) = .ok (.seVxNn x nn) ∧ decode (0x4#4 ++ x ++ nn) = .ok (.sneVxNn x nn) ∧
    (s.getV x = nn → exec (.seVxNn x nn) s = .next { s with pc := s.pc + 4#16 }) ∧
    (s.getV x ≠ nn → exec (.seVxNn x nn) s = .next { s with pc := s.pc + 2#16 }) ∧
    (s.getV x ≠ nn → exec (.sneVxNn x nn) s = .next { s with pc := s.pc + 4#16 }) ∧
    (s.getV x = nn → exec (.sneVxNn x nn) s = .next { s with pc := s.pc + 2#16 })

/-- R76, R77: the skips on two registers; every low nibble is the same instruction. -/
def Obligations.SkipsOnTwoRegisters : Prop :=
  ∀ (x y n : Nibble) (s : State),
    decode (0x5#4 ++ x ++ y ++ n) = .ok (.seVxVy x y) ∧ decode (0x9#4 ++ x ++ y ++ n) = .ok (.sneVxVy x y) ∧
    (s.getV x = s.getV y → exec (.seVxVy x y) s = .next { s with pc := s.pc + 4#16 }) ∧
    (s.getV x ≠ s.getV y → exec (.seVxVy x y) s = .next { s with pc := s.pc + 2#16 }) ∧
    (s.getV x ≠ s.getV y → exec (.sneVxVy x y) s = .next { s with pc := s.pc + 4#16 }) ∧
    (s.getV x = s.getV y → exec (.sneVxVy x y) s = .next { s with pc := s.pc + 2#16 })

/-- R78: the indexed jump, with no wrap at 12 bits. -/
def Obligations.IndexedJumpDoesNotWrap : Prop :=
  ∀ nnn : Addr, decode (0xB#4 ++ nnn) = .ok (.jpV0 nnn) ∧
    ∀ s : State, ∃ target : Word,
      target.toNat = nnn.toNat + (s.getV 0#4).toNat ∧ exec (.jpV0 nnn) s = .next { s with pc := target }

/-! ### Register loads and the ALU -/

/-- R81: load immediate. -/
def Obligations.LoadImmediateWritesNn : Prop :=
  ∀ (x : Nibble) (nn : Byte), decode (0x6#4 ++ x ++ nn) = .ok (.ldVxNn x nn) ∧
    ∀ s : State, exec (.ldVxNn x nn) s = .next { s with v := s.v.set x.toNat nn x.isLt, pc := s.pc + 2#16 }

/-- R82: add immediate, modulo 2^8, with no flag. -/
def Obligations.AddImmediateWrapsWithoutFlag : Prop :=
  ∀ (x : Nibble) (nn : Byte), decode (0x7#4 ++ x ++ nn) = .ok (.addVxNn x nn) ∧
    ∀ s : State, ∃ b : Byte, b.toNat = ((s.getV x).toNat + nn.toNat) % 256 ∧
      exec (.addVxNn x nn) s = .next { s with v := s.v.set x.toNat b x.isLt, pc := s.pc + 2#16 }

/-- R83: copy a register. -/
def Obligations.CopyWritesTheSource : Prop :=
  ∀ x y : Nibble, decode (0x8#4 ++ x ++ y ++ 0x0#4) = .ok (.ldVxVy x y) ∧
    ∀ s : State, exec (.ldVxVy x y) s = .next { s with v := s.v.set x.toNat (s.getV y) x.isLt, pc := s.pc + 2#16 }

/-- R84, R85, R86: the bitwise operations, bit by bit; VF is not written. -/
def Obligations.LogicOperationsWriteNoFlag : Prop :=
  ∀ x y : Nibble,
    decode (0x8#4 ++ x ++ y ++ 0x1#4) = .ok (.orVxVy x y) ∧
    decode (0x8#4 ++ x ++ y ++ 0x2#4) = .ok (.andVxVy x y) ∧
    decode (0x8#4 ++ x ++ y ++ 0x3#4) = .ok (.xorVxVy x y) ∧
    ∀ s : State, ∃ o a e : Byte,
      (∀ k, o.getLsbD k = ((s.getV x).getLsbD k || (s.getV y).getLsbD k)) ∧
      (∀ k, a.getLsbD k = ((s.getV x).getLsbD k && (s.getV y).getLsbD k)) ∧
      (∀ k, e.getLsbD k = ((s.getV x).getLsbD k != (s.getV y).getLsbD k)) ∧
      exec (.orVxVy x y) s = .next { s with v := s.v.set x.toNat o x.isLt, pc := s.pc + 2#16 } ∧
      exec (.andVxVy x y) s = .next { s with v := s.v.set x.toNat a x.isLt, pc := s.pc + 2#16 } ∧
      exec (.xorVxVy x y) s = .next { s with v := s.v.set x.toNat e x.isLt, pc := s.pc + 2#16 }

/-- R80: what FlagOp writes under each order, for all result and flag functions, and that the order is visible only when
X or Y is F. -/
def Obligations.FlagOpUnderEachWriteOrder : Prop :=
  ∀ (x y : Nibble) (r f : Byte → Byte → Byte) (s : State),
    (∀ z, (flagOp .resultThenFlag x y r f s).getV z =
      if z = vf then f (s.getV x) (s.getV y) else if z = x then r (s.getV x) (s.getV y) else s.getV z) ∧
    (∀ z, (flagOp .flagThenResult x y r f s).getV z =
      if z = x then
        r (if x = vf then f (s.getV x) (s.getV y) else s.getV x) (if y = vf then f (s.getV x) (s.getV y) else s.getV y)
      else if z = vf then f (s.getV x) (s.getV y) else s.getV z) ∧
    (∀ o, flagOp o x y r f s = { s with v := (flagOp o x y r f s).v, pc := s.pc + 2#16 }) ∧
    (x ≠ vf → y ≠ vf → flagOp .resultThenFlag x y r f s = flagOp .flagThenResult x y r f s)

/-- R87: 8XY4 is FlagOp with the sum and the carry. -/
def Obligations.AddSetsCarry : Prop :=
  ∀ x y : Nibble, decode (0x8#4 ++ x ++ y ++ 0x4#4) = .ok (.addVxVy x y) ∧
    (∀ a b : Byte, (addResult a b).toNat = (a.toNat + b.toNat) % 256 ∧
      (addFlag a b).toNat = if 255 < a.toNat + b.toNat then 1 else 0) ∧
    ∀ s : State, exec (.addVxVy x y) s = .next (flagOp Config.vfWriteOrder x y addResult addFlag s)

/-- R88: 8XY5 is FlagOp with the difference and the not-borrow. -/
def Obligations.SubtractSetsNotBorrow : Prop :=
  ∀ x y : Nibble, decode (0x8#4 ++ x ++ y ++ 0x5#4) = .ok (.subVxVy x y) ∧
    (∀ a b : Byte, (subResult a b).toNat = (256 + a.toNat - b.toNat) % 256 ∧
      (subFlag a b).toNat = if a.toNat < b.toNat then 0 else 1) ∧
    ∀ s : State, exec (.subVxVy x y) s = .next (flagOp Config.vfWriteOrder x y subResult subFlag s)

/-- R89: 8XY6 is FlagOp with half of V[X] and its low bit; V[Y] does not matter. -/
def Obligations.ShiftRightSetsTheBitShiftedOut : Prop :=
  ∀ x y : Nibble, decode (0x8#4 ++ x ++ y ++ 0x6#4) = .ok (.shrVx x y) ∧
    (∀ a b : Byte, (shrResult a b).toNat = a.toNat / 2 ∧ (shrFlag a b).toNat = a.toNat % 2) ∧
    ∀ s : State, exec (.shrVx x y) s = .next (flagOp Config.vfWriteOrder x y shrResult shrFlag s)

/-- R90: 8XY7 is FlagOp with the reverse difference and its not-borrow. -/
def Obligations.ReverseSubtractSetsNotBorrow : Prop :=
  ∀ x y : Nibble, decode (0x8#4 ++ x ++ y ++ 0x7#4) = .ok (.subnVxVy x y) ∧
    (∀ a b : Byte, (subnResult a b).toNat = (256 + b.toNat - a.toNat) % 256 ∧
      (subnFlag a b).toNat = if b.toNat < a.toNat then 0 else 1) ∧
    ∀ s : State, exec (.subnVxVy x y) s = .next (flagOp Config.vfWriteOrder x y subnResult subnFlag s)

/-- R91: 8XYE is FlagOp with twice V[X] modulo 2^8 and the raw masked bit 0x80; V[Y] does not matter. -/
def Obligations.ShiftLeftSetsTheRawBit : Prop :=
  ∀ x y : Nibble, decode (0x8#4 ++ x ++ y ++ 0xE#4) = .ok (.shlVx x y) ∧
    (∀ a b : Byte, (shlResult a b).toNat = 2 * a.toNat % 256 ∧
      (shlFlag a b).toNat = if 128 ≤ a.toNat then 0x80 else 0x00) ∧
    ∀ s : State, exec (.shlVx x y) s = .next (flagOp Config.vfWriteOrder x y shlResult shlFlag s)

/-- R92: the free byte of a fresh draw, masked; it holds for every value of the draw. -/
def Obligations.RandomByteIsAMaskedDraw : Prop :=
  ∀ (x : Nibble) (nn : Byte), decode (0xC#4 ++ x ++ nn) = .ok (.rndVxNn x nn) ∧
    ∀ s : State, exec (.rndVxNn x nn) s = .next
      { s with v := s.v.set x.toNat (Config.rand s.draws &&& nn) x.isLt, pc := s.pc + 2#16, draws := s.draws + 1 }

/-! ### The index register and memory -/

/-- R94: load the index register. -/
def Obligations.LoadIndexWritesNnn : Prop :=
  ∀ nnn : Addr, decode (0xA#4 ++ nnn) = .ok (.ldI nnn) ∧
    ∀ s : State, exec (.ldI nnn) s = .next { s with index := BitVec.ofNat 16 nnn.toNat, pc := s.pc + 2#16 }

/-- R95: add to the index register, modulo 2^12, with no flag. -/
def Obligations.AddToIndexWrapsAtTwelveBits : Prop :=
  ∀ x : Nibble, decode (0xF#4 ++ x ++ 0x1E#8) = .ok (.addIVx x) ∧
    ∀ s : State, ∃ a : Word, a.toNat = (s.index.toNat + (s.getV x).toNat) % 4096 ∧
      exec (.addIVx x) s = .next { s with index := a, pc := s.pc + 2#16 }

/-- R96: I points at five times V[X], unmasked. -/
def Obligations.GlyphAddressIsFiveTimesVx : Prop :=
  ∀ x : Nibble, decode (0xF#4 ++ x ++ 0x29#8) = .ok (.ldFVx x) ∧
    ∀ s : State, ∃ a : Word, a.toNat = 5 * (s.getV x).toNat ∧
      exec (.ldFVx x) s = .next { s with index := a, pc := s.pc + 2#16 }

/-- R97: the three digits are stored at I, I + 1 and I + 2, or MemOutOfRange and nothing is. -/
def Obligations.BcdStoresThreeDigits : Prop :=
  ∀ x : Nibble, decode (0xF#4 ++ x ++ 0x33#8) = .ok (.ldBVx x) ∧
    ∀ s : State,
      (s.index.toNat ≤ 0xFFD → ∃ t : State, exec (.ldBVx x) s = .next t ∧
        (t.mem.get s.index.toNat).toNat = (s.getV x).toNat / 100 ∧
        (t.mem.get (s.index.toNat + 1)).toNat = (s.getV x).toNat / 10 % 10 ∧
        (t.mem.get (s.index.toNat + 2)).toNat = (s.getV x).toNat % 10 ∧
        (∀ a, a < s.index.toNat ∨ s.index.toNat + 2 < a → t.mem.get a = s.mem.get a) ∧
        t = { s with mem := t.mem, pc := s.pc + 2#16 }) ∧
      (0xFFD < s.index.toNat → ∃ a : Nat, a = max s.index.toNat 0x1000 ∧ (s.index.toNat ≤ 0xFFF → a = 0x1000) ∧
        exec (.ldBVx x) s = .next { s with status := .faulted (.memOutOfRange a) })

/-- R98: V0 to VX are stored from I up and I stays, or MemOutOfRange and nothing is stored. -/
def Obligations.StoreRegistersCopiesToMemory : Prop :=
  ∀ x : Nibble, decode (0xF#4 ++ x ++ 0x55#8) = .ok (.ldMemVx x) ∧
    ∀ s : State,
      (s.index.toNat + x.toNat ≤ 0xFFF → ∃ t : State, exec (.ldMemVx x) s = .next t ∧
        (∀ k : Nat, k ≤ x.toNat → t.mem.get (s.index.toNat + k) = s.getV (BitVec.ofNat 4 k)) ∧
        (∀ a, a < s.index.toNat ∨ s.index.toNat + x.toNat < a → t.mem.get a = s.mem.get a) ∧
        t = { s with mem := t.mem, pc := s.pc + 2#16 }) ∧
      (0xFFF < s.index.toNat + x.toNat →
        ∃ a : Nat, a = max s.index.toNat 0x1000 ∧ (s.index.toNat ≤ 0xFFF → a = 0x1000) ∧
          exec (.ldMemVx x) s = .next { s with status := .faulted (.memOutOfRange a) })

/-- R99: V0 to VX are loaded from I up and I stays, or MemOutOfRange and no register is written. -/
def Obligations.LoadRegistersCopiesFromMemory : Prop :=
  ∀ x : Nibble, decode (0xF#4 ++ x ++ 0x65#8) = .ok (.ldVxMem x) ∧
    ∀ s : State,
      (s.index.toNat + x.toNat ≤ 0xFFF → ∃ t : State, exec (.ldVxMem x) s = .next t ∧
        (∀ z : Nibble, z.toNat ≤ x.toNat → t.getV z = s.mem.get (s.index.toNat + z.toNat)) ∧
        (∀ z : Nibble, x.toNat < z.toNat → t.getV z = s.getV z) ∧
        t = { s with v := t.v, pc := s.pc + 2#16 }) ∧
      (0xFFF < s.index.toNat + x.toNat →
        ∃ a : Nat, a = max s.index.toNat 0x1000 ∧ (s.index.toNat ≤ 0xFFF → a = 0x1000) ∧
          exec (.ldVxMem x) s = .next { s with status := .faulted (.memOutOfRange a) })

/-- R40, R41: the access primitives; R42: the range check of several bytes, which the spec marks as its own choice
(decision D17). -/
def Obligations.AccessesAreRangeChecked : Prop :=
  ∀ (s : State) (a n : Nat) (b : Byte),
    (a ≤ 0xFFF → s.memRead a = .ok (s.mem.get a) ∧
      ∃ t : State, s.memWrite a b = .ok t ∧ t = { s with mem := t.mem } ∧ t.mem.get a = b ∧
        ∀ c, c ≠ a → t.mem.get c = s.mem.get c) ∧
    (0xFFF < a → s.memRead a = .error (.memOutOfRange a) ∧ s.memWrite a b = .error (.memOutOfRange a)) ∧
    (0 < n ∧ 0xFFF < a + n - 1 → checkRange a n = .error (.memOutOfRange (max a 0x1000))) ∧
    (n = 0 ∨ a + n - 1 ≤ 0xFFF → checkRange a n = .ok ())

/-- R52: a store of FX55 over the next instruction is what the next fetch reads. -/
def Obligations.StoreIsSeenByTheNextFetch : Prop :=
  ∀ (x : Nibble) (s t : State) (op : Word), s.status = .running → exec (.ldMemVx x) s = .next t →
    t.status = .running → t.fetch = .ok op →
    s.index.toNat ≤ t.pc.toNat → t.pc.toNat + 1 ≤ s.index.toNat + x.toNat →
    op.toNat = 256 * (s.getV (BitVec.ofNat 4 (t.pc.toNat - s.index.toNat))).toNat +
      (s.getV (BitVec.ofNat 4 (t.pc.toNat + 1 - s.index.toNat))).toNat

/-! ### The display -/

/-- R100: every pixel is cleared, and Clear is recorded even of a clear display. -/
def Obligations.ClearScreenClearsEveryPixel : Prop :=
  decode 0x00E0#16 = .ok .cls ∧
  ∀ s : State, ∃ t : State, exec .cls s = .next t ∧
    (∀ x y, x < 64 → y < 32 → t.fb.pixel x y = false) ∧
    t = { s with fb := t.fb, events := s.events ++ [.clear], pc := s.pc + 2#16 }

/-- R102, R103, R104: each cell of the grid is toggled where the sprite has a set bit, cells outside are dropped, and the
result is true iff a lit pixel was turned off. -/
def Obligations.BlitTogglesCoveredPixels : Prop :=
  ∀ (fb : Frame) (x0 y0 : Nat) (rows : List Byte),
    (∀ x y, x < 64 → y < 32 →
      (fb.blit x0 y0 rows).1.pixel x y = (fb.pixel x y != spriteCovers x0 y0 rows x y)) ∧
    ((fb.blit x0 y0 rows).2 = true ↔
      ∃ x y, x < 64 ∧ y < 32 ∧ spriteCovers x0 y0 rows x y = true ∧ fb.pixel x y = true)

/-- R101: DXYN reads its rows, draws them at the old V[X] and V[Y], writes VF and records the call; or MemOutOfRange and
nothing is drawn. -/
def Obligations.DrawReadsBlitsAndSetsVf : Prop :=
  ∀ x y n : Nibble, decode (0xD#4 ++ x ++ y ++ n) = .ok (.drw x y n) ∧
    ∀ s : State,
      (n.toNat = 0 ∨ s.index.toNat + n.toNat - 1 ≤ 0xFFF → ∃ (t : State) (rows : List Byte) (c : Bool),
        exec (.drw x y n) s = .next t ∧
        rows.length = n.toNat ∧ (∀ k (h : k < rows.length), rows[k] = s.mem.get (s.index.toNat + k)) ∧
        (t.fb, c) = s.fb.blit (s.getV x).toNat (s.getV y).toNat rows ∧
        t.getV vf = (if c then 1#8 else 0#8) ∧ (∀ z, z ≠ vf → t.getV z = s.getV z) ∧
        t = { s with
              v := t.v, fb := t.fb, pc := s.pc + 2#16
              events := s.events ++ [.draw (s.getV x) (s.getV y) rows c] }) ∧
      (0 < n.toNat ∧ 0xFFF < s.index.toNat + n.toNat - 1 →
        ∃ a : Nat, a = max s.index.toNat 0x1000 ∧ (s.index.toNat ≤ 0xFFF → a = 0x1000) ∧
          exec (.drw x y n) s = .next { s with status := .faulted (.memOutOfRange a) })

/-- Derived from R101 and R102: the same sprite drawn twice at the same place restores the framebuffer; the first draw
collides iff it covers a lit pixel, the second iff the sprite covers a pixel that was dark. The last clause follows the
pseudocode against a corner-case sentence of R101, DEDUCED (log entry 9). X = F and Y = F are left out: there the first
draw's VF is a coordinate of the second, which is then drawn at another place. -/
def Obligations.DrawingTwiceRestoresTheScreen : Prop :=
  ∀ (x y n : Nibble) (s : State), x ≠ vf → y ≠ vf →
    (n.toNat = 0 ∨ s.index.toNat + n.toNat - 1 ≤ 0xFFF) →
    ∃ t u : State, exec (.drw x y n) s = .next t ∧ exec (.drw x y n) t = .next u ∧ u.fb = s.fb ∧
      (t.getV vf = 1#8 ↔ ∃ a b, a < 64 ∧ b < 32 ∧ s.fb.pixel a b = true ∧
        spriteCovers (s.getV x).toNat (s.getV y).toNat (s.mem.bytes s.index.toNat n.toNat) a b = true) ∧
      (u.getV vf = 1#8 ↔ ∃ a b, a < 64 ∧ b < 32 ∧ s.fb.pixel a b = false ∧
        spriteCovers (s.getV x).toNat (s.getV y).toNat (s.mem.bytes s.index.toNat n.toNat) a b = true)

/-! ### Timers, keys and agents -/

/-- R105: read the delay timer. -/
def Obligations.ReadDelayTimerCopiesDt : Prop :=
  ∀ x : Nibble, decode (0xF#4 ++ x ++ 0x07#8) = .ok (.ldVxDt x) ∧
    ∀ s : State, exec (.ldVxDt x) s = .next { s with v := s.v.set x.toNat s.dt x.isLt, pc := s.pc + 2#16 }

/-- R106, R107: set the timers. -/
def Obligations.SetTimersCopyVx : Prop :=
  ∀ x : Nibble,
    decode (0xF#4 ++ x ++ 0x15#8) = .ok (.ldDtVx x) ∧ decode (0xF#4 ++ x ++ 0x18#8) = .ok (.ldStVx x) ∧
    ∀ s : State,
      exec (.ldDtVx x) s = .next { s with dt := s.getV x, pc := s.pc + 2#16 } ∧
      exec (.ldStVx x) s = .next { s with st := s.getV x, pc := s.pc + 2#16 }

/-- R108, R109: the key skips, for either answer of KeyHeld, and KeyOutOfRange before any draw. -/
def Obligations.KeySkipsFollowTheAnswer : Prop :=
  ∀ x : Nibble,
    decode (0xE#4 ++ x ++ 0x9E#8) = .ok (.skpVx x) ∧ decode (0xE#4 ++ x ++ 0xA1#8) = .ok (.sknpVx x) ∧
    ∀ s : State,
      (∀ k : Key, (s.getV x).toNat = k.val →
        exec (.skpVx x) s = .next
          { s with pc := s.pc + (if Config.keyHeld s.draws k then 4#16 else 2#16), draws := s.draws + 1 } ∧
        exec (.sknpVx x) s = .next
          { s with pc := s.pc + (if Config.keyHeld s.draws k then 2#16 else 4#16), draws := s.draws + 1 }) ∧
      (15 < (s.getV x).toNat →
        exec (.skpVx x) s = .next { s with status := .faulted (.keyOutOfRange (s.getV x)) } ∧
        exec (.sknpVx x) s = .next { s with status := .faulted (.keyOutOfRange (s.getV x)) })

/-- R110: FX0A suspends; pc and every register stay. -/
def Obligations.KeyWaitSuspends : Prop :=
  ∀ x : Nibble, decode (0xF#4 ++ x ++ 0x0A#8) = .ok (.ldVxK x) ∧
    ∀ s : State, exec (.ldVxK x) s = .next { s with status := .waitingKey x }

/-- R111: a delivered key completes the suspended FX0A. -/
def Obligations.DeliveredKeyCompletesTheWait : Prop :=
  ∀ (s : State) (x : Nibble) (k : Key), s.status = .waitingKey x → s.takeTurn.1 = .keyDelivered k →
    ∃ b : Byte, b.toNat = k.val ∧
      step s = .next
        { s with v := s.v.set x.toNat b x.isLt, pc := s.pc + 2#16, status := .running, sched := s.takeTurn.2.sched }

/-- R133: the wait survives everything but a delivered key and cancellation, and meanwhile only the timers and their beeps
change. -/
def Obligations.KeyWaitEndsOnlyByKeyOrCancel : Prop :=
  ∀ (s t : State) (x : Nibble), s.status = .waitingKey x → step s = .next t →
    (t = { s with dt := t.dt, st := t.st, events := t.events, sched := s.takeTurn.2.sched }) ∨
    (∃ k, s.takeTurn.1 = .keyDelivered k ∧ t.status = .running) ∨
    (s.takeTurn.1 = .cancel ∧ t.status = .stopped)

/-- R125: a tick in a running or waiting state counts DT and ST down to 0 and beeps while ST is nonzero. -/
def Obligations.TickCountsDownAndBeeps : Prop :=
  ∀ s : State, (s.status = .running ∨ ∃ x, s.status = .waitingKey x) → s.takeTurn.1 = .tick →
    ∃ d b : Byte, d.toNat = s.dt.toNat - 1 ∧ b.toNat = s.st.toNat - 1 ∧
      step s = .next
        { s with
          dt := d, st := b, sched := s.takeTurn.2.sched
          events := if s.st.toNat = 0 then s.events else s.events ++ [.beep] }

/-- Derived from R125: n ticks take n from each timer, stop at 0, and beep once for each of ST's counts. -/
def Obligations.ManyTicksDrainTheTimers : Prop :=
  ∀ (n : Nat) (s : State),
    (ticks n s).dt.toNat = s.dt.toNat - n ∧ (ticks n s).st.toNat = s.st.toNat - n ∧
    (ticks n s).events = s.events ++ List.replicate (min n s.st.toNat) .beep ∧
    ticks n s = { s with dt := (ticks n s).dt, st := (ticks n s).st, events := (ticks n s).events }

/-- R127: cancellation stops the run from a running or a waiting state and changes nothing else. -/
def Obligations.CancelStopsTheRun : Prop :=
  ∀ s : State, (s.status = .running ∨ ∃ x, s.status = .waitingKey x) → s.takeTurn.1 = .cancel →
    step s = .next { s with status := .stopped, sched := s.takeTurn.2.sched }

/-- R123 with the model's own choice (log entry 1): a transition that is not enabled is not taken, and only the schedule
moves on. -/
def Obligations.DisabledTransitionIsNotTaken : Prop :=
  ∀ s : State,
    (∀ k, s.status = .running → s.takeTurn.1 = .keyDelivered k →
      step s = .next { s with sched := s.takeTurn.2.sched }) ∧
    (∀ x, s.status = .waitingKey x → s.takeTurn.1 = .cpu → step s = .next { s with sched := s.takeTurn.2.sched })

/-! ### What cannot be observed -/

/-- R27: no instruction reads ST. -/
def Obligations.NoInstructionReadsTheSoundTimer : Prop :=
  ∀ (i : Instr) (s : State) (b : Byte),
    exec i { s with st := b } =
      mapNext (fun t => if (∃ x, i = .ldStVx x) then t else { t with st := b }) (exec i s)

/-- R31: no instruction reads the output history. -/
def Obligations.NoInstructionReadsTheEvents : Prop :=
  ∀ (i : Instr) (s : State) (older : List Event),
    exec i { s with events := older ++ s.events } =
      mapNext (fun t => { t with events := older ++ t.events }) (exec i s)

/-! ### Reset and Load -/

/-- R136: the state after initialization, for every INIT_MEM; the font is FONT's default (log entry 3). -/
def Obligations.ResetEstablishesTheLaunchValues : Prop :=
  (∀ z, State.reset.getV z = 0#8) ∧ State.reset.dt = 0#8 ∧ State.reset.st = 0#8 ∧
  State.reset.index = 0#16 ∧ State.reset.sp = 0 ∧ (∀ k (h : k < 16), State.reset.stack[k] = 0#16) ∧
  (∀ a (h : a < Memory.defaultFont.length), State.reset.mem.get a = Memory.defaultFont[a]) ∧
  Memory.defaultFont.length = 80 ∧
  (∀ a, 80 ≤ a → a < 4096 → State.reset.mem.get a = Config.initMem a) ∧
  State.reset.pc = 0x200#16 ∧ (∀ x y, State.reset.fb.pixel x y = false) ∧
  State.reset.events = [.clear] ∧ State.reset.status = .running

/-- R137: Load places the image at 512, or raises ImageTooLarge with its length when it is longer than 3584 bytes. -/
def Obligations.LoadPlacesTheImageOrFails : Prop :=
  ∀ (b : List Byte) (s : State),
    (b.length ≤ 3584 → ∃ t : State, loadImage b s = .next t ∧
      (∀ k (h : k < b.length), t.mem.get (512 + k) = b[k]) ∧
      (∀ a, a < 512 ∨ 512 + b.length ≤ a → t.mem.get a = s.mem.get a) ∧ t = { s with mem := t.mem }) ∧
    (3584 < b.length → loadImage b s = .fault (.loadFailed (.imageTooLarge b.length)))

/-- R39: the launch contents of memory, for every FONT, every INIT_MEM and every image that fits. -/
def Obligations.LaunchMemoryForEveryFont : Prop :=
  ∀ (font : Vector Byte 80) (b : List Byte), b.length ≤ 3584 →
    ∃ t : State, loadImage b (State.resetWithFont font) = .next t ∧
      (∀ a (h : a < 80), t.mem.get a = font[a]) ∧
      (∀ k (h : k < b.length), t.mem.get (512 + k) = b[k]) ∧
      (∀ a, 80 ≤ a ∧ a < 512 ∨ 512 + b.length ≤ a → t.mem.get a = Config.initMem a)
end

