-- ==== Sys2Proof/Laws/Decode.lean ====
section
/-! SUPPORT. The fields and the dispatch key of an assembled opcode, for the three shapes of an encoding: class and NNN,
class, X and NN, and class, X, Y and N. -/

namespace Sys2Proof

/-! ### An assembled opcode as a number -/

theorem toNat_assemble_nnn (c : Nibble) (nnn : Addr) :
    (c ++ nnn : Word).toNat = 4096 * c.toNat + nnn.toNat := by
  have h := BitVec.toNat_append c nnn
  rw [Nat.shiftLeft_eq, ← Nat.shiftLeft_eq, ← Nat.shiftLeft_add_eq_or_of_lt nnn.isLt, Nat.shiftLeft_eq] at h
  rw [h]; omega

theorem toNat_assemble_xnn (c x : Nibble) (nn : Byte) :
    (c ++ x ++ nn : Word).toNat = 4096 * c.toNat + 256 * x.toNat + nn.toNat := by
  have h1 := BitVec.toNat_append (c ++ x) nn
  have h2 := BitVec.toNat_append c x
  rw [← Nat.shiftLeft_add_eq_or_of_lt nn.isLt, Nat.shiftLeft_eq] at h1
  rw [← Nat.shiftLeft_add_eq_or_of_lt x.isLt, Nat.shiftLeft_eq] at h2
  rw [h1, h2]; omega

theorem toNat_assemble_xyn (c x y n : Nibble) :
    (c ++ x ++ y ++ n : Word).toNat = 4096 * c.toNat + 256 * x.toNat + 16 * y.toNat + n.toNat := by
  have h1 := BitVec.toNat_append (c ++ x ++ y) n
  have h2 := BitVec.toNat_append (c ++ x) y
  have h3 := BitVec.toNat_append c x
  rw [← Nat.shiftLeft_add_eq_or_of_lt n.isLt, Nat.shiftLeft_eq] at h1
  rw [← Nat.shiftLeft_add_eq_or_of_lt y.isLt, Nat.shiftLeft_eq] at h2
  rw [← Nat.shiftLeft_add_eq_or_of_lt x.isLt, Nat.shiftLeft_eq] at h3
  rw [h1, h2, h3]; omega

/-! ### The fields of an opcode as numbers -/

theorem toNat_fieldC (op : Word) : (fieldC op).toNat = op.toNat / 4096 := by
  have := op.isLt
  simp only [fieldC, BitVec.extractLsb'_toNat, Nat.shiftRight_eq_div_pow]; omega

theorem toNat_fieldX (op : Word) : (fieldX op).toNat = op.toNat / 256 % 16 := by
  simp only [fieldX, BitVec.extractLsb'_toNat, Nat.shiftRight_eq_div_pow]

theorem toNat_fieldY (op : Word) : (fieldY op).toNat = op.toNat / 16 % 16 := by
  simp only [fieldY, BitVec.extractLsb'_toNat, Nat.shiftRight_eq_div_pow]

theorem toNat_fieldN (op : Word) : (fieldN op).toNat = op.toNat % 16 := by
  simp only [fieldN, BitVec.extractLsb'_toNat, Nat.shiftRight_eq_div_pow]; omega

theorem toNat_fieldNN (op : Word) : (fieldNN op).toNat = op.toNat % 256 := by
  simp only [fieldNN, BitVec.extractLsb'_toNat, Nat.shiftRight_eq_div_pow]; omega

theorem toNat_fieldNNN (op : Word) : (fieldNNN op).toNat = op.toNat % 4096 := by
  simp only [fieldNNN, BitVec.extractLsb'_toNat, Nat.shiftRight_eq_div_pow]; omega

/-! ### The fields of an assembled opcode -/

@[simp] theorem fieldC_nnn (c : Nibble) (nnn : Addr) : fieldC (c ++ nnn) = c := by
  apply BitVec.eq_of_toNat_eq
  have := nnn.isLt
  rw [toNat_fieldC, toNat_assemble_nnn]; omega

@[simp] theorem fieldNNN_nnn (c : Nibble) (nnn : Addr) : fieldNNN (c ++ nnn) = nnn := by
  apply BitVec.eq_of_toNat_eq
  have := nnn.isLt
  rw [toNat_fieldNNN, toNat_assemble_nnn]; omega

@[simp] theorem fieldC_xnn (c x : Nibble) (nn : Byte) : fieldC (c ++ x ++ nn) = c := by
  apply BitVec.eq_of_toNat_eq
  have := nn.isLt; have := x.isLt
  rw [toNat_fieldC, toNat_assemble_xnn]; omega

@[simp] theorem fieldX_xnn (c x : Nibble) (nn : Byte) : fieldX (c ++ x ++ nn) = x := by
  apply BitVec.eq_of_toNat_eq
  have := nn.isLt; have := x.isLt
  rw [toNat_fieldX, toNat_assemble_xnn]; omega

@[simp] theorem fieldNN_xnn (c x : Nibble) (nn : Byte) : fieldNN (c ++ x ++ nn) = nn := by
  apply BitVec.eq_of_toNat_eq
  have := nn.isLt
  rw [toNat_fieldNN, toNat_assemble_xnn]; omega

@[simp] theorem fieldC_xyn (c x y n : Nibble) : fieldC (c ++ x ++ y ++ n) = c := by
  apply BitVec.eq_of_toNat_eq
  have := x.isLt; have := y.isLt; have := n.isLt
  rw [toNat_fieldC, toNat_assemble_xyn]; omega

@[simp] theorem fieldX_xyn (c x y n : Nibble) : fieldX (c ++ x ++ y ++ n) = x := by
  apply BitVec.eq_of_toNat_eq
  have := x.isLt; have := y.isLt; have := n.isLt
  rw [toNat_fieldX, toNat_assemble_xyn]; omega

@[simp] theorem fieldY_xyn (c x y n : Nibble) : fieldY (c ++ x ++ y ++ n) = y := by
  apply BitVec.eq_of_toNat_eq
  have := y.isLt; have := n.isLt
  rw [toNat_fieldY, toNat_assemble_xyn]; omega

@[simp] theorem fieldN_xyn (c x y n : Nibble) : fieldN (c ++ x ++ y ++ n) = n := by
  apply BitVec.eq_of_toNat_eq
  have := n.isLt
  rw [toNat_fieldN, toNat_assemble_xyn]; omega

/-! ### The masks of R59 on an assembled opcode -/

theorem nibble_and_ones (a : Nibble) : a &&& 0xF#4 = a := BitVec.and_allOnes (x := a)
theorem byte_and_ones (a : Byte) : a &&& 0xFF#8 = a := BitVec.and_allOnes (x := a)

theorem maskF000_nnn (c : Nibble) (nnn : Addr) : (c ++ nnn : Word) &&& 0xF000#16 = c ++ 0#12 := by
  have h : (c ++ nnn) &&& (0xF#4 ++ 0#12) = (c &&& 0xF#4) ++ (nnn &&& 0#12) := BitVec.and_append
  rw [nibble_and_ones, BitVec.and_zero] at h
  exact h

theorem maskF000_xnn (c x : Nibble) (nn : Byte) : (c ++ x ++ nn : Word) &&& 0xF000#16 = c ++ 0#4 ++ 0#8 := by
  have h : (c ++ x ++ nn) &&& (0xF#4 ++ 0#4 ++ 0#8) = (c ++ x &&& 0xF#4 ++ 0#4) ++ (nn &&& 0#8) := BitVec.and_append
  have h' : (c ++ x) &&& (0xF#4 ++ 0#4) = (c &&& 0xF#4) ++ (x &&& 0#4) := BitVec.and_append
  rw [h', nibble_and_ones, BitVec.and_zero, BitVec.and_zero] at h
  exact h

theorem maskF0FF_xnn (c x : Nibble) (nn : Byte) : (c ++ x ++ nn : Word) &&& 0xF0FF#16 = c ++ 0#4 ++ nn := by
  have h : (c ++ x ++ nn) &&& (0xF#4 ++ 0#4 ++ 0xFF#8) = (c ++ x &&& 0xF#4 ++ 0#4) ++ (nn &&& 0xFF#8) := BitVec.and_append
  have h' : (c ++ x) &&& (0xF#4 ++ 0#4) = (c &&& 0xF#4) ++ (x &&& 0#4) := BitVec.and_append
  rw [h', nibble_and_ones, BitVec.and_zero, byte_and_ones] at h
  exact h

theorem maskF000_xyn (c x y n : Nibble) :
    (c ++ x ++ y ++ n : Word) &&& 0xF000#16 = c ++ 0#4 ++ 0#4 ++ 0#4 := by
  have h : (c ++ x ++ y ++ n) &&& (0xF#4 ++ 0#4 ++ 0#4 ++ 0#4) =
      (c ++ x ++ y &&& 0xF#4 ++ 0#4 ++ 0#4) ++ (n &&& 0#4) := BitVec.and_append
  have h' : (c ++ x ++ y) &&& (0xF#4 ++ 0#4 ++ 0#4) = (c ++ x &&& 0xF#4 ++ 0#4) ++ (y &&& 0#4) := BitVec.and_append
  have h'' : (c ++ x) &&& (0xF#4 ++ 0#4) = (c &&& 0xF#4) ++ (x &&& 0#4) := BitVec.and_append
  rw [h', h'', nibble_and_ones, BitVec.and_zero, BitVec.and_zero, BitVec.and_zero] at h
  exact h

theorem maskF00F_xyn (c x y n : Nibble) :
    (c ++ x ++ y ++ n : Word) &&& 0xF00F#16 = c ++ 0#4 ++ 0#4 ++ n := by
  have h : (c ++ x ++ y ++ n) &&& (0xF#4 ++ 0#4 ++ 0#4 ++ 0xF#4) =
      (c ++ x ++ y &&& 0xF#4 ++ 0#4 ++ 0#4) ++ (n &&& 0xF#4) := BitVec.and_append
  have h' : (c ++ x ++ y) &&& (0xF#4 ++ 0#4 ++ 0#4) = (c ++ x &&& 0xF#4 ++ 0#4) ++ (y &&& 0#4) := BitVec.and_append
  have h'' : (c ++ x) &&& (0xF#4 ++ 0#4) = (c &&& 0xF#4) ++ (x &&& 0#4) := BitVec.and_append
  rw [h', h'', nibble_and_ones, BitVec.and_zero, BitVec.and_zero, nibble_and_ones] at h
  exact h

/-! ### Decoding by the table -/

/-- A bound key: the entry reads the fields (R60). -/
theorem decode_of_lookup {op k : Word} {h : Word → Instr} (hk : key op = k) (hl : handlers.lookup k = some h) :
    decode op = .ok (h op) := by
  simp only [decode, hk, hl]

/-- An unbound key: the whole opcode is named (R61). -/
theorem decode_of_unbound {op k : Word} (hk : key op = k) (hl : handlers.lookup k = none) :
    decode op = .error (.unknownOpcode op) := by
  simp only [decode, hk, hl]

end Sys2Proof
end

