-- ==== Sys2Proof/Laws/Frame.lean ====
section
/-! SUPPORT. The framebuffer pixel by pixel (R28, R102, R103). -/

namespace Sys2Proof.Machine

theorem Frame.pixel_of_mem (fb : Frame) {x y : Nat} (hx : x < 64) (hy : y < 32) : fb.pixel x y = fb[x][y] := by
  simp [Frame.pixel, hx, hy]

/-- A cell outside the grid reads as not lit. -/
theorem Frame.pixel_outside (fb : Frame) {x y : Nat} (h : ¬ (x < 64 ∧ y < 32)) : fb.pixel x y = false := by
  simp only [Frame.pixel, dif_neg h]

@[simp] theorem Frame.pixel_blank (x y : Nat) : Frame.blank.pixel x y = false := by
  unfold Frame.pixel Frame.blank
  split <;> simp

/-- Toggling a cell of the grid negates that pixel and leaves every other alone; outside it does nothing. -/
theorem Frame.pixel_toggle (fb : Frame) (a b x y : Nat) :
    (fb.toggle a b).pixel x y =
      if x = a ∧ y = b ∧ a < 64 ∧ b < 32 then !fb.pixel x y else fb.pixel x y := by
  by_cases hab : a < 64 ∧ b < 32
  · by_cases hxy : x < 64 ∧ y < 32
    · obtain ⟨ha, hb⟩ := hab
      obtain ⟨hx, hy⟩ := hxy
      simp only [Frame.toggle, Frame.pixel, ha, hb, hx, hy, and_self, and_true, dif_pos, Vector.getElem_set]
      by_cases h1 : a = x
      · subst h1
        by_cases h2 : b = y
        · subst h2; simp
        · have : ¬ y = b := fun h => h2 h.symm
          simp [h2, this]
      · have : ¬ x = a := fun h => h1 h.symm
        simp [h1, this]
    · rw [Frame.pixel_outside _ hxy, Frame.pixel_outside _ hxy]
      split
      · rename_i h; exact absurd ⟨h.1 ▸ hab.1, h.2.1 ▸ hab.2⟩ hxy
      · rfl
  · have : ¬ (x = a ∧ y = b ∧ a < 64 ∧ b < 32) := fun h => hab h.2.2
    rw [if_neg this]
    simp only [Frame.toggle, dif_neg hab]

/-- Two framebuffers with the same pixels are equal. -/
theorem Frame.ext_pixel {f g : Frame} (h : ∀ x y, x < 64 → y < 32 → f.pixel x y = g.pixel x y) : f = g := by
  apply Vector.ext; intro x hx
  apply Vector.ext; intro y hy
  rw [← Frame.pixel_of_mem f hx hy, ← Frame.pixel_of_mem g hx hy]
  exact h x y hx hy

end Sys2Proof.Machine
end

