-- ==== Sys2Proof/Laws/Memory.lean ====
section
/-! SUPPORT. What reading and writing memory do (R47, R49), and that every write keeps the canonical form. -/

namespace Sys2Proof.Machine

/-! ### Listed bytes -/

theorem Memory.lookup_insert (m : Memory) (a b : Nat) (v : Byte) :
    Memory.lookup (Memory.insert a v m) b = if b = a then some v else m.lookup b := by
  induction m with
  | nil => simp only [Memory.insert, Memory.lookup]
  | cons c m ih =>
    obtain ⟨d, w⟩ := c
    by_cases hlt : a < d
    · simp only [Memory.insert, if_pos hlt, Memory.lookup]
    · by_cases heq : a = d
      · subst heq
        simp only [Memory.insert, if_neg hlt, if_true, Memory.lookup]
        by_cases hb : b = a <;> simp [hb]
      · simp only [Memory.insert, if_neg hlt, if_neg heq, Memory.lookup, ih]
        by_cases hb : b = d
        · simp [hb]; omega
        · simp [hb]

theorem Memory.lookup_filter (m : Memory) (a b : Nat) :
    Memory.lookup (m.filter fun c => c.1 ≠ a) b = if b = a then none else m.lookup b := by
  induction m with
  | nil => simp [Memory.lookup]
  | cons c m ih =>
    obtain ⟨d, w⟩ := c
    by_cases hd : d = a
    · subst hd
      simp only [ne_eq, not_true_eq_false, decide_false, Bool.false_eq_true, not_false_eq_true, List.filter_cons_of_neg]
      rw [ih]
      by_cases hb : b = d <;> simp [Memory.lookup, hb]
    · rw [List.filter_cons_of_pos (by simpa using hd)]
      simp only [Memory.lookup, ih]
      by_cases hb : b = d
      · subst hb; simp [hd]
      · simp [hb]

/-! ### Reading after writing -/

/-- A read after one write: the byte written at its address, and what it was elsewhere (R47). -/
theorem Memory.get_set (m : Memory) (a b : Nat) (v : Byte) :
    (m.set a v).get b = if b = a then v else m.get b := by
  unfold Memory.set Memory.get
  by_cases h : Memory.launchByte a = some v
  · rw [if_pos h, Memory.lookup_filter]
    by_cases hb : b = a
    · subst hb; simp [Memory.unlisted, h]
    · simp [hb]
  · rw [if_neg h, Memory.lookup_insert]
    by_cases hb : b = a <;> simp [hb]

@[simp] theorem Memory.get_set_self (m : Memory) (a : Nat) (v : Byte) : (m.set a v).get a = v := by
  rw [Memory.get_set, if_pos rfl]

theorem Memory.get_set_of_ne (m : Memory) {a b : Nat} (v : Byte) (h : b ≠ a) : (m.set a v).get b = m.get b := by
  rw [Memory.get_set, if_neg h]

/-- A read after a block of writes: the block's byte inside it, and what it was outside. -/
theorem Memory.get_putBytes (m : Memory) (bs : List Byte) (a b : Nat) :
    (m.putBytes a bs).get b =
      if h : a ≤ b ∧ b < a + bs.length then bs[b - a]'(by omega) else m.get b := by
  induction bs generalizing m a with
  | nil =>
    have : ¬ (a ≤ b ∧ b < a + ([] : List Byte).length) := by simp
    rw [dif_neg this]; rfl
  | cons c bs ih =>
    simp only [Memory.putBytes, ih, List.length_cons, Memory.get_set]
    by_cases hab : b = a
    · subst hab
      have h1 : ¬ (b + 1 ≤ b ∧ b < b + 1 + bs.length) := by omega
      have h2 : b ≤ b ∧ b < b + (bs.length + 1) := by omega
      rw [dif_neg h1, dif_pos h2, if_pos rfl]
      simp
    · by_cases hin : a + 1 ≤ b ∧ b < a + 1 + bs.length
      · have h2 : a ≤ b ∧ b < a + (bs.length + 1) := by omega
        have h3 : b - a = (b - (a + 1)) + 1 := by omega
        rw [dif_pos hin, dif_pos h2]; simp only [h3, List.getElem_cons_succ]
      · have h2 : ¬ (a ≤ b ∧ b < a + (bs.length + 1)) := by omega
        rw [dif_neg hin, dif_neg h2, if_neg hab]

@[simp] theorem Memory.length_bytes (m : Memory) (a n : Nat) : (m.bytes a n).length = n := by
  simp [Memory.bytes]

theorem Memory.getElem_bytes (m : Memory) (a n k : Nat) (h : k < (m.bytes a n).length) :
    (m.bytes a n)[k] = m.get (a + k) := by
  simp [Memory.bytes]

/-! ### The canonical form -/

/-- The canonical form as a proposition. -/
theorem Memory.wf_iff (m : Memory) :
    m.wf = true ↔ m.Pairwise (fun c d => c.1 < d.1) ∧ ∀ c ∈ m, c.1 < 4096 ∧ Memory.launchByte c.1 ≠ some c.2 := by
  simp [Memory.wf]

@[simp] theorem Memory.wf_nil : Memory.wf [] = true := rfl

theorem Memory.mem_insert {m : Memory} {a : Nat} {v : Byte} {c : Host.Cell} (h : c ∈ Memory.insert a v m) :
    c = (a, v) ∨ c ∈ m := by
  induction m with
  | nil => simpa [Memory.insert] using h
  | cons d m ih =>
    obtain ⟨b, w⟩ := d
    simp only [Memory.insert] at h
    split at h
    · simpa using h
    · split at h
      · rcases List.mem_cons.1 h with h | h
        · exact .inl h
        · exact .inr (List.mem_cons_of_mem _ h)
      · rcases List.mem_cons.1 h with h | h
        · exact .inr (h ▸ List.mem_cons_self)
        · exact (ih h).imp id (List.mem_cons_of_mem _)

theorem Memory.pairwise_insert {m : Memory} (a : Nat) (v : Byte) (h : m.Pairwise fun c d => c.1 < d.1) :
    (Memory.insert a v m).Pairwise fun c d => c.1 < d.1 := by
  induction m with
  | nil => simp [Memory.insert]
  | cons d m ih =>
    obtain ⟨b, w⟩ := d
    have hm := List.pairwise_cons.1 h
    simp only [Memory.insert]
    split
    · rename_i hlt
      refine List.pairwise_cons.2 ⟨fun c hc => ?_, h⟩
      rcases List.mem_cons.1 hc with rfl | hc
      · exact hlt
      · exact Nat.lt_trans hlt (hm.1 c hc)
    · split
      · rename_i heq
        subst heq
        exact List.pairwise_cons.2 ⟨hm.1, hm.2⟩
      · refine List.pairwise_cons.2 ⟨fun c hc => ?_, ih hm.2⟩
        rcases Memory.mem_insert hc with rfl | hc
        · show b < a; omega
        · exact hm.1 c hc

/-- One write keeps the canonical form. -/
theorem Memory.wf_set {m : Memory} {a : Nat} (v : Byte) (h : m.wf = true) (ha : a < 4096) :
    (m.set a v).wf = true := by
  rw [Memory.wf_iff] at h ⊢
  unfold Memory.set
  split
  · exact ⟨h.1.filter _, fun c hc => h.2 c (List.mem_filter.1 hc).1⟩
  · rename_i hv
    refine ⟨Memory.pairwise_insert a v h.1, fun c hc => ?_⟩
    rcases Memory.mem_insert hc with rfl | hc
    · exact ⟨ha, hv⟩
    · exact h.2 c hc

/-- A block of writes inside memory keeps the canonical form. -/
theorem Memory.wf_putBytes {m : Memory} (bs : List Byte) {a : Nat} (h : m.wf = true) (ha : a + bs.length ≤ 4096) :
    (m.putBytes a bs).wf = true := by
  induction bs generalizing m a with
  | nil => exact h
  | cons b bs ih =>
    rw [List.length_cons] at ha
    exact ih (Memory.wf_set b h (by omega)) (by omega)

end Sys2Proof.Machine
end

