-- ==== Sys2Proof/Laws/State.lean ====
section
/-! SUPPORT. What each update of the state does to each field: one lemma per field per update, true by rfl. -/

namespace Sys2Proof.Machine

/-! ### setV -/

@[simp] theorem State.v_setV (s : State) (x : Nibble) (b : Byte) : (s.setV x b).v = s.v.write x b := rfl
@[simp] theorem State.index_setV (s : State) (x : Nibble) (b : Byte) : (s.setV x b).index = s.index := rfl
@[simp] theorem State.pc_setV (s : State) (x : Nibble) (b : Byte) : (s.setV x b).pc = s.pc := rfl
@[simp] theorem State.stack_setV (s : State) (x : Nibble) (b : Byte) : (s.setV x b).stack = s.stack := rfl
@[simp] theorem State.sp_setV (s : State) (x : Nibble) (b : Byte) : (s.setV x b).sp = s.sp := rfl
@[simp] theorem State.dt_setV (s : State) (x : Nibble) (b : Byte) : (s.setV x b).dt = s.dt := rfl
@[simp] theorem State.st_setV (s : State) (x : Nibble) (b : Byte) : (s.setV x b).st = s.st := rfl
@[simp] theorem State.fb_setV (s : State) (x : Nibble) (b : Byte) : (s.setV x b).fb = s.fb := rfl
@[simp] theorem State.mem_setV (s : State) (x : Nibble) (b : Byte) : (s.setV x b).mem = s.mem := rfl
@[simp] theorem State.status_setV (s : State) (x : Nibble) (b : Byte) : (s.setV x b).status = s.status := rfl
@[simp] theorem State.events_setV (s : State) (x : Nibble) (b : Byte) : (s.setV x b).events = s.events := rfl
@[simp] theorem State.sched_setV (s : State) (x : Nibble) (b : Byte) : (s.setV x b).sched = s.sched := rfl
@[simp] theorem State.draws_setV (s : State) (x : Nibble) (b : Byte) : (s.setV x b).draws = s.draws := rfl

/-! ### advance -/

@[simp] theorem State.v_advance (s : State) (n : Word) : (s.advance n).v = s.v := rfl
@[simp] theorem State.index_advance (s : State) (n : Word) : (s.advance n).index = s.index := rfl
@[simp] theorem State.pc_advance (s : State) (n : Word) : (s.advance n).pc = s.pc + n := rfl
@[simp] theorem State.stack_advance (s : State) (n : Word) : (s.advance n).stack = s.stack := rfl
@[simp] theorem State.sp_advance (s : State) (n : Word) : (s.advance n).sp = s.sp := rfl
@[simp] theorem State.dt_advance (s : State) (n : Word) : (s.advance n).dt = s.dt := rfl
@[simp] theorem State.st_advance (s : State) (n : Word) : (s.advance n).st = s.st := rfl
@[simp] theorem State.fb_advance (s : State) (n : Word) : (s.advance n).fb = s.fb := rfl
@[simp] theorem State.mem_advance (s : State) (n : Word) : (s.advance n).mem = s.mem := rfl
@[simp] theorem State.status_advance (s : State) (n : Word) : (s.advance n).status = s.status := rfl
@[simp] theorem State.events_advance (s : State) (n : Word) : (s.advance n).events = s.events := rfl
@[simp] theorem State.sched_advance (s : State) (n : Word) : (s.advance n).sched = s.sched := rfl
@[simp] theorem State.draws_advance (s : State) (n : Word) : (s.advance n).draws = s.draws := rfl

/-! ### emit -/

@[simp] theorem State.v_emit (s : State) (e : Event) : (s.emit e).v = s.v := rfl
@[simp] theorem State.index_emit (s : State) (e : Event) : (s.emit e).index = s.index := rfl
@[simp] theorem State.pc_emit (s : State) (e : Event) : (s.emit e).pc = s.pc := rfl
@[simp] theorem State.stack_emit (s : State) (e : Event) : (s.emit e).stack = s.stack := rfl
@[simp] theorem State.sp_emit (s : State) (e : Event) : (s.emit e).sp = s.sp := rfl
@[simp] theorem State.dt_emit (s : State) (e : Event) : (s.emit e).dt = s.dt := rfl
@[simp] theorem State.st_emit (s : State) (e : Event) : (s.emit e).st = s.st := rfl
@[simp] theorem State.fb_emit (s : State) (e : Event) : (s.emit e).fb = s.fb := rfl
@[simp] theorem State.mem_emit (s : State) (e : Event) : (s.emit e).mem = s.mem := rfl
@[simp] theorem State.status_emit (s : State) (e : Event) : (s.emit e).status = s.status := rfl
@[simp] theorem State.events_emit (s : State) (e : Event) : (s.emit e).events = s.events ++ [e] := rfl
@[simp] theorem State.sched_emit (s : State) (e : Event) : (s.emit e).sched = s.sched := rfl
@[simp] theorem State.draws_emit (s : State) (e : Event) : (s.emit e).draws = s.draws := rfl

/-! ### skipIf -/

@[simp] theorem State.v_skipIf (s : State) (c : Bool) : (s.skipIf c).v = s.v := rfl
@[simp] theorem State.index_skipIf (s : State) (c : Bool) : (s.skipIf c).index = s.index := rfl
@[simp] theorem State.pc_skipIf (s : State) (c : Bool) : (s.skipIf c).pc = s.pc + (if c then 4#16 else 2#16) := rfl
@[simp] theorem State.stack_skipIf (s : State) (c : Bool) : (s.skipIf c).stack = s.stack := rfl
@[simp] theorem State.sp_skipIf (s : State) (c : Bool) : (s.skipIf c).sp = s.sp := rfl
@[simp] theorem State.dt_skipIf (s : State) (c : Bool) : (s.skipIf c).dt = s.dt := rfl
@[simp] theorem State.st_skipIf (s : State) (c : Bool) : (s.skipIf c).st = s.st := rfl
@[simp] theorem State.fb_skipIf (s : State) (c : Bool) : (s.skipIf c).fb = s.fb := rfl
@[simp] theorem State.mem_skipIf (s : State) (c : Bool) : (s.skipIf c).mem = s.mem := rfl
@[simp] theorem State.status_skipIf (s : State) (c : Bool) : (s.skipIf c).status = s.status := rfl
@[simp] theorem State.events_skipIf (s : State) (c : Bool) : (s.skipIf c).events = s.events := rfl
@[simp] theorem State.sched_skipIf (s : State) (c : Bool) : (s.skipIf c).sched = s.sched := rfl
@[simp] theorem State.draws_skipIf (s : State) (c : Bool) : (s.skipIf c).draws = s.draws := rfl

/-! ### putReg -/

@[simp] theorem State.v_putReg (s : State) (x : Nibble) (b : Byte) : (s.putReg x b).v = s.v.write x b := rfl
@[simp] theorem State.index_putReg (s : State) (x : Nibble) (b : Byte) : (s.putReg x b).index = s.index := rfl
@[simp] theorem State.pc_putReg (s : State) (x : Nibble) (b : Byte) : (s.putReg x b).pc = s.pc + 2#16 := rfl
@[simp] theorem State.stack_putReg (s : State) (x : Nibble) (b : Byte) : (s.putReg x b).stack = s.stack := rfl
@[simp] theorem State.sp_putReg (s : State) (x : Nibble) (b : Byte) : (s.putReg x b).sp = s.sp := rfl
@[simp] theorem State.dt_putReg (s : State) (x : Nibble) (b : Byte) : (s.putReg x b).dt = s.dt := rfl
@[simp] theorem State.st_putReg (s : State) (x : Nibble) (b : Byte) : (s.putReg x b).st = s.st := rfl
@[simp] theorem State.fb_putReg (s : State) (x : Nibble) (b : Byte) : (s.putReg x b).fb = s.fb := rfl
@[simp] theorem State.mem_putReg (s : State) (x : Nibble) (b : Byte) : (s.putReg x b).mem = s.mem := rfl
@[simp] theorem State.status_putReg (s : State) (x : Nibble) (b : Byte) : (s.putReg x b).status = s.status := rfl
@[simp] theorem State.events_putReg (s : State) (x : Nibble) (b : Byte) : (s.putReg x b).events = s.events := rfl
@[simp] theorem State.sched_putReg (s : State) (x : Nibble) (b : Byte) : (s.putReg x b).sched = s.sched := rfl
@[simp] theorem State.draws_putReg (s : State) (x : Nibble) (b : Byte) : (s.putReg x b).draws = s.draws := rfl

/-! ### putIndex -/

@[simp] theorem State.v_putIndex (s : State) (a : Word) : (s.putIndex a).v = s.v := rfl
@[simp] theorem State.index_putIndex (s : State) (a : Word) : (s.putIndex a).index = a := rfl
@[simp] theorem State.pc_putIndex (s : State) (a : Word) : (s.putIndex a).pc = s.pc + 2#16 := rfl
@[simp] theorem State.stack_putIndex (s : State) (a : Word) : (s.putIndex a).stack = s.stack := rfl
@[simp] theorem State.sp_putIndex (s : State) (a : Word) : (s.putIndex a).sp = s.sp := rfl
@[simp] theorem State.dt_putIndex (s : State) (a : Word) : (s.putIndex a).dt = s.dt := rfl
@[simp] theorem State.st_putIndex (s : State) (a : Word) : (s.putIndex a).st = s.st := rfl
@[simp] theorem State.fb_putIndex (s : State) (a : Word) : (s.putIndex a).fb = s.fb := rfl
@[simp] theorem State.mem_putIndex (s : State) (a : Word) : (s.putIndex a).mem = s.mem := rfl
@[simp] theorem State.status_putIndex (s : State) (a : Word) : (s.putIndex a).status = s.status := rfl
@[simp] theorem State.events_putIndex (s : State) (a : Word) : (s.putIndex a).events = s.events := rfl
@[simp] theorem State.sched_putIndex (s : State) (a : Word) : (s.putIndex a).sched = s.sched := rfl
@[simp] theorem State.draws_putIndex (s : State) (a : Word) : (s.putIndex a).draws = s.draws := rfl

/-! ### cancel -/

@[simp] theorem State.v_cancel (s : State) : (s.cancel).v = s.v := rfl
@[simp] theorem State.index_cancel (s : State) : (s.cancel).index = s.index := rfl
@[simp] theorem State.pc_cancel (s : State) : (s.cancel).pc = s.pc := rfl
@[simp] theorem State.stack_cancel (s : State) : (s.cancel).stack = s.stack := rfl
@[simp] theorem State.sp_cancel (s : State) : (s.cancel).sp = s.sp := rfl
@[simp] theorem State.dt_cancel (s : State) : (s.cancel).dt = s.dt := rfl
@[simp] theorem State.st_cancel (s : State) : (s.cancel).st = s.st := rfl
@[simp] theorem State.fb_cancel (s : State) : (s.cancel).fb = s.fb := rfl
@[simp] theorem State.mem_cancel (s : State) : (s.cancel).mem = s.mem := rfl
@[simp] theorem State.status_cancel (s : State) : (s.cancel).status = .stopped := rfl
@[simp] theorem State.events_cancel (s : State) : (s.cancel).events = s.events := rfl
@[simp] theorem State.sched_cancel (s : State) : (s.cancel).sched = s.sched := rfl
@[simp] theorem State.draws_cancel (s : State) : (s.cancel).draws = s.draws := rfl

/-! ### Draws -/

@[simp] theorem State.v_drawRand (s : State) : (s.drawRand).2.v = s.v := rfl
@[simp] theorem State.index_drawRand (s : State) : (s.drawRand).2.index = s.index := rfl
@[simp] theorem State.pc_drawRand (s : State) : (s.drawRand).2.pc = s.pc := rfl
@[simp] theorem State.stack_drawRand (s : State) : (s.drawRand).2.stack = s.stack := rfl
@[simp] theorem State.sp_drawRand (s : State) : (s.drawRand).2.sp = s.sp := rfl
@[simp] theorem State.dt_drawRand (s : State) : (s.drawRand).2.dt = s.dt := rfl
@[simp] theorem State.st_drawRand (s : State) : (s.drawRand).2.st = s.st := rfl
@[simp] theorem State.fb_drawRand (s : State) : (s.drawRand).2.fb = s.fb := rfl
@[simp] theorem State.mem_drawRand (s : State) : (s.drawRand).2.mem = s.mem := rfl
@[simp] theorem State.status_drawRand (s : State) : (s.drawRand).2.status = s.status := rfl
@[simp] theorem State.events_drawRand (s : State) : (s.drawRand).2.events = s.events := rfl
@[simp] theorem State.sched_drawRand (s : State) : (s.drawRand).2.sched = s.sched := rfl
@[simp] theorem State.draws_drawRand (s : State) : (s.drawRand).2.draws = s.draws + 1 := rfl
@[simp] theorem State.v_drawKeyHeld (s : State) (k : Key) : (s.drawKeyHeld k).2.v = s.v := rfl
@[simp] theorem State.index_drawKeyHeld (s : State) (k : Key) : (s.drawKeyHeld k).2.index = s.index := rfl
@[simp] theorem State.pc_drawKeyHeld (s : State) (k : Key) : (s.drawKeyHeld k).2.pc = s.pc := rfl
@[simp] theorem State.stack_drawKeyHeld (s : State) (k : Key) : (s.drawKeyHeld k).2.stack = s.stack := rfl
@[simp] theorem State.sp_drawKeyHeld (s : State) (k : Key) : (s.drawKeyHeld k).2.sp = s.sp := rfl
@[simp] theorem State.dt_drawKeyHeld (s : State) (k : Key) : (s.drawKeyHeld k).2.dt = s.dt := rfl
@[simp] theorem State.st_drawKeyHeld (s : State) (k : Key) : (s.drawKeyHeld k).2.st = s.st := rfl
@[simp] theorem State.fb_drawKeyHeld (s : State) (k : Key) : (s.drawKeyHeld k).2.fb = s.fb := rfl
@[simp] theorem State.mem_drawKeyHeld (s : State) (k : Key) : (s.drawKeyHeld k).2.mem = s.mem := rfl
@[simp] theorem State.status_drawKeyHeld (s : State) (k : Key) : (s.drawKeyHeld k).2.status = s.status := rfl
@[simp] theorem State.events_drawKeyHeld (s : State) (k : Key) : (s.drawKeyHeld k).2.events = s.events := rfl
@[simp] theorem State.sched_drawKeyHeld (s : State) (k : Key) : (s.drawKeyHeld k).2.sched = s.sched := rfl
@[simp] theorem State.draws_drawKeyHeld (s : State) (k : Key) : (s.drawKeyHeld k).2.draws = s.draws + 1 := rfl

end Sys2Proof.Machine
end

