-- ==== Sys2Proof/Laws/Ops.lean ====
section
/-! SUPPORT. What each shared operation can do, said once. -/

namespace Sys2Proof.Machine

/-! ### Registers -/

/-- A register of the file after a write. -/
theorem Regs.read_write (v : Regs) (x y : Nibble) (b : Byte) :
    (v.write x b).read y = if x = y then b else v.read y := by
  simp only [Regs.read, Regs.write, Vector.getElem_set, BitVec.toNat_inj]

theorem Regs.read_write_of_ne (v : Regs) {x y : Nibble} (b : Byte) (h : x ≠ y) : (v.write x b).read y = v.read y := by
  rw [Regs.read_write, if_neg h]

/-- Writes to two registers commute. -/
theorem Regs.write_comm (v : Regs) {x y : Nibble} (a b : Byte) (h : x ≠ y) :
    (v.write x a).write y b = (v.write y b).write x a := by
  unfold Regs.write
  exact Vector.set_comm _ _ (fun e => h (BitVec.eq_of_toNat_eq e))

/-- A register after a block write that starts at V[k] and does not pass VF. -/
theorem Regs.read_writeBlock (v : Regs) (k : Nat) (bs : List Byte) (h : k + bs.length ≤ 16) (y : Nibble) :
    (v.writeBlock k bs).read y =
      if hy : k ≤ y.toNat ∧ y.toNat < k + bs.length then bs[y.toNat - k]'(by omega) else v.read y := by
  induction bs generalizing v k with
  | nil =>
    have : ¬ (k ≤ y.toNat ∧ y.toNat < k + ([] : List Byte).length) := by simp
    rw [dif_neg this]; rfl
  | cons b bs ih =>
    rw [List.length_cons] at h
    have hy := y.isLt
    simp only [Regs.writeBlock, ih _ (k + 1) (by omega), List.length_cons, Regs.read_write]
    by_cases hk : y.toNat = k
    · have h0 : BitVec.ofNat 4 k = y := by rw [← hk]; simp
      have h2 : k ≤ y.toNat ∧ y.toNat < k + (bs.length + 1) := by omega
      have h3 : y.toNat - k = 0 := by omega
      have h1 : ¬ (k + 1 ≤ y.toNat ∧ y.toNat < k + 1 + bs.length) := by omega
      rw [dif_neg h1, dif_pos h2, if_pos h0]
      simp [h3]
    · have h0 : ¬ BitVec.ofNat 4 k = y := by
        intro e; apply hk; rw [← e, BitVec.toNat_ofNat]; omega
      by_cases hin : k + 1 ≤ y.toNat ∧ y.toNat < k + 1 + bs.length
      · have h2 : k ≤ y.toNat ∧ y.toNat < k + (bs.length + 1) := by omega
        have h3 : y.toNat - k = (y.toNat - (k + 1)) + 1 := by omega
        rw [dif_pos hin, dif_pos h2]
        simp [h3]
      · have h2 : ¬ (k ≤ y.toNat ∧ y.toNat < k + (bs.length + 1)) := by omega
        rw [dif_neg hin, dif_neg h2, if_neg h0]

/-- A register after a write. -/
theorem State.getV_setV (s : State) (x y : Nibble) (b : Byte) :
    (s.setV x b).getV y = if x = y then b else s.getV y := Regs.read_write s.v x y b

@[simp] theorem State.getV_setV_self (s : State) (x : Nibble) (b : Byte) : (s.setV x b).getV x = b := by
  rw [State.getV_setV, if_pos rfl]

theorem State.getV_setV_of_ne (s : State) {x y : Nibble} (b : Byte) (h : x ≠ y) : (s.setV x b).getV y = s.getV y := by
  rw [State.getV_setV, if_neg h]

@[simp] theorem State.getV_advance (s : State) (n : Word) (y : Nibble) : (s.advance n).getV y = s.getV y := rfl

@[simp] theorem State.getV_emit (s : State) (e : Event) (y : Nibble) : (s.emit e).getV y = s.getV y := rfl

/-! ### Faults -/

@[simp] theorem settle_ok (s t : State) : settle s (.ok t) = .next t := rfl

@[simp] theorem settle_error (s : State) (f : FaultReason) :
    settle s (.error f) = .next { s with status := .faulted f } := rfl

/-- A Step that settles either completes or takes its fault. -/
theorem settle_cases {s t : State} {r : Except FaultReason State} (h : settle s r = .next t) :
    r = .ok t ∨ ∃ f, r = .error f ∧ t = { s with status := .faulted f } := by
  cases r with
  | ok u => exact .inl (by simpa [settle] using h)
  | error f => exact .inr ⟨f, rfl, by simpa [settle, raise] using h.symm⟩

/-! ### Ranges -/

theorem checkRange_ok {a n : Nat} (h : n = 0 ∨ a + n ≤ 4096) : checkRange a n = .ok () := by
  unfold checkRange; rw [if_neg]; omega

theorem checkRange_error {a n : Nat} (hn : 0 < n) (h : 4096 < a + n) :
    checkRange a n = .error (.memOutOfRange (max a 0x1000)) := by
  unfold checkRange; rw [if_pos]; omega

/-- The two outcomes of `CheckRange`. -/
theorem checkRange_cases (a n : Nat) :
    (checkRange a n = .ok () ∧ (n = 0 ∨ a + n ≤ 4096)) ∨
      (checkRange a n = .error (.memOutOfRange (max a 0x1000)) ∧ 0 < n ∧ 4096 < a + n) := by
  by_cases h : n = 0 ∨ a + n ≤ 4096
  · exact .inl ⟨checkRange_ok h, h⟩
  · exact .inr ⟨checkRange_error (by omega) (by omega), by omega, by omega⟩

/-- A one-byte range is `MemRead` (R40, R42). -/
theorem State.readRange_one (s : State) (a : Nat) : s.readRange a 1 = (s.memRead a).map fun b => [b] := by
  unfold State.readRange State.memRead checkRange
  by_cases h : 0xFFF < a
  · rw [if_pos (by omega), if_pos h, Nat.max_eq_left (by omega)]; rfl
  · rw [if_neg (by omega), if_neg h]; rfl

/-- A one-byte range is `MemWrite` (R41, R42). -/
theorem State.writeRange_one (s : State) (a : Nat) (b : Byte) : s.writeRange a [b] = s.memWrite a b := by
  unfold State.writeRange State.memWrite checkRange
  simp only [List.length_cons, List.length_nil]
  by_cases h : 0xFFF < a
  · rw [if_pos (by omega), if_pos h, Nat.max_eq_left (by omega)]; rfl
  · rw [if_neg (by omega), if_neg h]; rfl

/-- What writing a range can do: all of it, or the fault of R42. -/
theorem State.writeRange_cases (s : State) (a : Nat) (bs : List Byte) :
    (s.writeRange a bs = .ok { s with mem := s.mem.putBytes a bs } ∧ (bs.length = 0 ∨ a + bs.length ≤ 4096)) ∨
      (s.writeRange a bs = .error (.memOutOfRange (max a 0x1000)) ∧ 0 < bs.length ∧ 4096 < a + bs.length) := by
  unfold State.writeRange
  rcases checkRange_cases a bs.length with ⟨h, hr⟩ | ⟨h, hr⟩
  · exact .inl ⟨by rw [h]; rfl, hr⟩
  · exact .inr ⟨by rw [h]; rfl, hr⟩

/-- What reading a range can do: all of it, or the fault of R42. -/
theorem State.readRange_cases (s : State) (a n : Nat) :
    (s.readRange a n = .ok (s.mem.bytes a n) ∧ (n = 0 ∨ a + n ≤ 4096)) ∨
      (s.readRange a n = .error (.memOutOfRange (max a 0x1000)) ∧ 0 < n ∧ 4096 < a + n) := by
  unfold State.readRange
  rcases checkRange_cases a n with ⟨h, hr⟩ | ⟨h, hr⟩
  · exact .inl ⟨by rw [h]; rfl, hr⟩
  · exact .inr ⟨by rw [h]; rfl, hr⟩

/-! ### Fetch -/

theorem State.fetch_ok {s : State} (he : s.pc.toNat % 2 = 0) (hr : s.pc.toNat ≤ 0xFFE) :
    s.fetch = .ok (s.mem.get s.pc.toNat ++ s.mem.get (s.pc.toNat + 1)) := by
  unfold State.fetch State.memRead
  rw [if_neg (by omega), if_neg (by omega), if_neg (by omega)]

theorem State.fetch_bad {s : State} (h : s.pc.toNat % 2 ≠ 0 ∨ 0xFFE < s.pc.toNat) :
    s.fetch = .error (.badFetch s.pc) := by
  unfold State.fetch; rw [if_pos h]

/-! ### The stack -/

theorem State.push_ok {s : State} (w : Word) (h : s.sp.val < 16) :
    s.push w = .ok { s with stack := s.stack.set s.sp.val w h, sp := ⟨s.sp.val + 1, by omega⟩ } := by
  unfold State.push; rw [dif_pos h]

theorem State.push_full {s : State} (w : Word) (h : ¬ s.sp.val < 16) : s.push w = .error (.stackOverflow s.pc) := by
  unfold State.push; rw [dif_neg h]

theorem State.pop_ok {s : State} (h : 0 < s.sp.val) :
    s.pop = .ok (s.stack[s.sp.val - 1]'(by omega), { s with sp := ⟨s.sp.val - 1, by omega⟩ }) := by
  unfold State.pop; rw [dif_pos h]

theorem State.pop_empty {s : State} (h : ¬ 0 < s.sp.val) : s.pop = .error (.stackUnderflow s.pc) := by
  unfold State.pop; rw [dif_neg h]

/-- What a push can do. -/
theorem State.push_cases (s : State) (w : Word) :
    (∃ h : s.sp.val < 16, s.push w =
        .ok { s with stack := s.stack.set s.sp.val w h, sp := ⟨s.sp.val + 1, by omega⟩ }) ∨
      (s.sp.val = 16 ∧ s.push w = .error (.stackOverflow s.pc)) := by
  by_cases h : s.sp.val < 16
  · exact .inl ⟨h, State.push_ok w h⟩
  · have := s.sp.isLt
    exact .inr ⟨by omega, State.push_full w h⟩

/-- What a pop can do. -/
theorem State.pop_cases (s : State) :
    (∃ h : 0 < s.sp.val, s.pop =
        .ok (s.stack[s.sp.val - 1]'(by omega), { s with sp := ⟨s.sp.val - 1, by omega⟩ })) ∨
      (s.sp.val = 0 ∧ s.pop = .error (.stackUnderflow s.pc)) := by
  by_cases h : 0 < s.sp.val
  · exact .inl ⟨h, State.pop_ok h⟩
  · exact .inr ⟨by omega, State.pop_empty h⟩

/-! ### Operands -/

theorem State.keyOf_ok {s : State} {x : Nibble} (h : (s.getV x).toNat < 16) :
    s.keyOf x = .ok ⟨(s.getV x).toNat, h⟩ := by
  unfold State.keyOf; rw [dif_pos h]

theorem State.keyOf_error {s : State} {x : Nibble} (h : ¬ (s.getV x).toNat < 16) :
    s.keyOf x = .error (.keyOutOfRange (s.getV x)) := by
  unfold State.keyOf; rw [dif_neg h]

/-- What reading a key number can do. -/
theorem State.keyOf_cases (s : State) (x : Nibble) :
    (∃ k : Key, (s.getV x).toNat = k.val ∧ s.keyOf x = .ok k) ∨
      (15 < (s.getV x).toNat ∧ s.keyOf x = .error (.keyOutOfRange (s.getV x))) := by
  by_cases h : (s.getV x).toNat < 16
  · exact .inl ⟨⟨_, h⟩, rfl, State.keyOf_ok h⟩
  · exact .inr ⟨by omega, State.keyOf_error h⟩

@[simp] theorem State.length_regsUpTo (s : State) (x : Nibble) : (s.regsUpTo x).length = x.toNat + 1 := by
  simp [State.regsUpTo]

theorem State.getElem_regsUpTo (s : State) (x : Nibble) (k : Nat) (h : k < (s.regsUpTo x).length) :
    (s.regsUpTo x)[k] = s.getV (BitVec.ofNat 4 k) := by
  simp [State.regsUpTo]

/-! ### Flag writers -/

/-- A flag writer changes no register but V[X] and VF. -/
theorem Regs.read_flagWrites_of_ne (o : VfWriteOrder) (x y : Nibble) (r f : Byte → Byte → Byte) (v : Regs) {z : Nibble}
    (hx : x ≠ z) (hf : vf ≠ z) : (flagWrites o x y r f v).read z = v.read z := by
  cases o <;> simp only [flagWrites, Regs.read_write_of_ne _ _ hx, Regs.read_write_of_ne _ _ hf]

/-! ### The schedule -/

/-- Taking a turn changes the schedule alone. -/
theorem State.takeTurn_eq (s : State) : s.takeTurn.2 = { s with sched := s.takeTurn.2.sched } := by
  unfold State.takeTurn
  split <;> rfl

end Sys2Proof.Machine
end

