-- ==== Sys2Proof/Laws/PerInstr.lean ====
section
/-! SUPPORT. The statements made per instruction. `EncodedKey`: the opcode of an instruction has the dispatch key its row
of R60 gives. -/

namespace Sys2Proof.Laws.EncodedKey

/-- The opcode of `i` is dispatched by the key of its row (R59, R60). -/
def Statement (i : Instr) : Prop := Sys2Proof.key (encode i) = i.handlerKey

/-- Class nibbles whose key is the top nibble alone (R59). -/
theorem key_top {op : Word} {c : Nibble} (h : fieldC op = c)
    (hc : c ≠ 0x0#4 ∧ c ≠ 0x8#4 ∧ c ≠ 0xE#4 ∧ c ≠ 0xF#4) : Sys2Proof.key op = op &&& 0xF000#16 := by
  unfold Sys2Proof.key
  rw [h]
  split <;> simp_all [← BitVec.toNat_inj]

theorem key_8 {op : Word} (h : fieldC op = 0x8#4) : Sys2Proof.key op = op &&& 0xF00F#16 := by
  unfold Sys2Proof.key; rw [h]; rfl

theorem key_E {op : Word} (h : fieldC op = 0xE#4) : Sys2Proof.key op = op &&& 0xF0FF#16 := by
  unfold Sys2Proof.key; rw [h]; rfl

theorem key_F {op : Word} (h : fieldC op = 0xF#4) : Sys2Proof.key op = op &&& 0xF0FF#16 := by
  unfold Sys2Proof.key; rw [h]; rfl

theorem cls : Statement .cls := rfl
theorem ret : Statement .ret := rfl
theorem jp (nnn : Addr) : Statement (.jp nnn) :=
  (key_top (fieldC_nnn _ nnn) (by decide)).trans (maskF000_nnn _ nnn)
theorem call (nnn : Addr) : Statement (.call nnn) :=
  (key_top (fieldC_nnn _ nnn) (by decide)).trans (maskF000_nnn _ nnn)
theorem seVxNn (x : Nibble) (nn : Byte) : Statement (.seVxNn x nn) :=
  (key_top (fieldC_xnn _ x nn) (by decide)).trans (maskF000_xnn _ x nn)
theorem sneVxNn (x : Nibble) (nn : Byte) : Statement (.sneVxNn x nn) :=
  (key_top (fieldC_xnn _ x nn) (by decide)).trans (maskF000_xnn _ x nn)
theorem seVxVy (x y : Nibble) : Statement (.seVxVy x y) :=
  (key_top (fieldC_xyn _ x y _) (by decide)).trans (maskF000_xyn _ x y _)
theorem ldVxNn (x : Nibble) (nn : Byte) : Statement (.ldVxNn x nn) :=
  (key_top (fieldC_xnn _ x nn) (by decide)).trans (maskF000_xnn _ x nn)
theorem addVxNn (x : Nibble) (nn : Byte) : Statement (.addVxNn x nn) :=
  (key_top (fieldC_xnn _ x nn) (by decide)).trans (maskF000_xnn _ x nn)
theorem ldVxVy (x y : Nibble) : Statement (.ldVxVy x y) :=
  (key_8 (fieldC_xyn _ x y _)).trans (maskF00F_xyn _ x y _)
theorem orVxVy (x y : Nibble) : Statement (.orVxVy x y) :=
  (key_8 (fieldC_xyn _ x y _)).trans (maskF00F_xyn _ x y _)
theorem andVxVy (x y : Nibble) : Statement (.andVxVy x y) :=
  (key_8 (fieldC_xyn _ x y _)).trans (maskF00F_xyn _ x y _)
theorem xorVxVy (x y : Nibble) : Statement (.xorVxVy x y) :=
  (key_8 (fieldC_xyn _ x y _)).trans (maskF00F_xyn _ x y _)
theorem addVxVy (x y : Nibble) : Statement (.addVxVy x y) :=
  (key_8 (fieldC_xyn _ x y _)).trans (maskF00F_xyn _ x y _)
theorem subVxVy (x y : Nibble) : Statement (.subVxVy x y) :=
  (key_8 (fieldC_xyn _ x y _)).trans (maskF00F_xyn _ x y _)
theorem shrVx (x y : Nibble) : Statement (.shrVx x y) :=
  (key_8 (fieldC_xyn _ x y _)).trans (maskF00F_xyn _ x y _)
theorem subnVxVy (x y : Nibble) : Statement (.subnVxVy x y) :=
  (key_8 (fieldC_xyn _ x y _)).trans (maskF00F_xyn _ x y _)
theorem shlVx (x y : Nibble) : Statement (.shlVx x y) :=
  (key_8 (fieldC_xyn _ x y _)).trans (maskF00F_xyn _ x y _)
theorem sneVxVy (x y : Nibble) : Statement (.sneVxVy x y) :=
  (key_top (fieldC_xyn _ x y _) (by decide)).trans (maskF000_xyn _ x y _)
theorem ldI (nnn : Addr) : Statement (.ldI nnn) :=
  (key_top (fieldC_nnn _ nnn) (by decide)).trans (maskF000_nnn _ nnn)
theorem jpV0 (nnn : Addr) : Statement (.jpV0 nnn) :=
  (key_top (fieldC_nnn _ nnn) (by decide)).trans (maskF000_nnn _ nnn)
theorem rndVxNn (x : Nibble) (nn : Byte) : Statement (.rndVxNn x nn) :=
  (key_top (fieldC_xnn _ x nn) (by decide)).trans (maskF000_xnn _ x nn)
theorem drw (x y n : Nibble) : Statement (.drw x y n) :=
  (key_top (fieldC_xyn _ x y n) (by decide)).trans (maskF000_xyn _ x y n)
theorem skpVx (x : Nibble) : Statement (.skpVx x) :=
  (key_E (fieldC_xnn _ x _)).trans (maskF0FF_xnn _ x _)
theorem sknpVx (x : Nibble) : Statement (.sknpVx x) :=
  (key_E (fieldC_xnn _ x _)).trans (maskF0FF_xnn _ x _)
theorem ldVxDt (x : Nibble) : Statement (.ldVxDt x) :=
  (key_F (fieldC_xnn _ x _)).trans (maskF0FF_xnn _ x _)
theorem ldVxK (x : Nibble) : Statement (.ldVxK x) :=
  (key_F (fieldC_xnn _ x _)).trans (maskF0FF_xnn _ x _)
theorem ldDtVx (x : Nibble) : Statement (.ldDtVx x) :=
  (key_F (fieldC_xnn _ x _)).trans (maskF0FF_xnn _ x _)
theorem ldStVx (x : Nibble) : Statement (.ldStVx x) :=
  (key_F (fieldC_xnn _ x _)).trans (maskF0FF_xnn _ x _)
theorem addIVx (x : Nibble) : Statement (.addIVx x) :=
  (key_F (fieldC_xnn _ x _)).trans (maskF0FF_xnn _ x _)
theorem ldFVx (x : Nibble) : Statement (.ldFVx x) :=
  (key_F (fieldC_xnn _ x _)).trans (maskF0FF_xnn _ x _)
theorem ldBVx (x : Nibble) : Statement (.ldBVx x) :=
  (key_F (fieldC_xnn _ x _)).trans (maskF0FF_xnn _ x _)
theorem ldMemVx (x : Nibble) : Statement (.ldMemVx x) :=
  (key_F (fieldC_xnn _ x _)).trans (maskF0FF_xnn _ x _)
theorem ldVxMem (x : Nibble) : Statement (.ldVxMem x) :=
  (key_F (fieldC_xnn _ x _)).trans (maskF0FF_xnn _ x _)

/-- Every instruction's opcode has its row's key. -/
theorem all : ∀ i : Instr, Statement i
  | .cls => cls
  | .ret => ret
  | .jp nnn => jp nnn
  | .call nnn => call nnn
  | .seVxNn x nn => seVxNn x nn
  | .sneVxNn x nn => sneVxNn x nn
  | .seVxVy x y => seVxVy x y
  | .ldVxNn x nn => ldVxNn x nn
  | .addVxNn x nn => addVxNn x nn
  | .ldVxVy x y => ldVxVy x y
  | .orVxVy x y => orVxVy x y
  | .andVxVy x y => andVxVy x y
  | .xorVxVy x y => xorVxVy x y
  | .addVxVy x y => addVxVy x y
  | .subVxVy x y => subVxVy x y
  | .shrVx x y => shrVx x y
  | .subnVxVy x y => subnVxVy x y
  | .shlVx x y => shlVx x y
  | .sneVxVy x y => sneVxVy x y
  | .ldI nnn => ldI nnn
  | .jpV0 nnn => jpV0 nnn
  | .rndVxNn x nn => rndVxNn x nn
  | .drw x y n => drw x y n
  | .skpVx x => skpVx x
  | .sknpVx x => sknpVx x
  | .ldVxDt x => ldVxDt x
  | .ldVxK x => ldVxK x
  | .ldDtVx x => ldDtVx x
  | .ldStVx x => ldStVx x
  | .addIVx x => addIVx x
  | .ldFVx x => ldFVx x
  | .ldBVx x => ldBVx x
  | .ldMemVx x => ldMemVx x
  | .ldVxMem x => ldVxMem x

end Sys2Proof.Laws.EncodedKey
end

