-- ==== Sys2Proof/Laws/Step.lean ====
section
/-! SUPPORT. What a step can do, said once: the cases of `step`, of the instruction clock's Step, and of Load. -/

namespace Sys2Proof.Machine

/-- Taking a turn leaves every field but the schedule. -/
theorem State.takeTurn_status (s : State) : s.takeTurn.2.status = s.status := by
  rw [State.takeTurn_eq]

/-- A step that answers a next state is a turn: the run has not ended, and either the chosen transition was enabled and
answered that state, or it was not and only the schedule moved on. -/
theorem step_cases {s t : State} (h : step s = .next t) :
    (s.status = .running ∨ ∃ x, s.status = .waitingKey x) ∧
      ((enabled s.takeTurn.1 s.status = true ∧ transition s.takeTurn.1 s.takeTurn.2 = .next t) ∨
        (enabled s.takeTurn.1 s.status = false ∧ t = s.takeTurn.2)) := by
  have turn : turnStep s = .next t →
      ((enabled s.takeTurn.1 s.status = true ∧ transition s.takeTurn.1 s.takeTurn.2 = .next t) ∨
        (enabled s.takeTurn.1 s.status = false ∧ t = s.takeTurn.2)) := by
    intro h
    unfold turnStep at h
    split at h
    · rename_i he; exact .inl ⟨he, h⟩
    · rename_i he; exact .inr ⟨by simpa using he, by simpa using h.symm⟩
  unfold step machineStep at h
  split at h
  · rename_i hs; exact ⟨.inl hs, turn h⟩
  · rename_i x hs; exact ⟨.inr ⟨x, hs⟩, turn h⟩
  · simp at h
  · simp at h

/-- A Step of the instruction clock takes BadFetch or UnknownOpcode, or executes the decoded instruction. -/
theorem cpuStep_cases {s t : State} (h : cpuStep s = .next t) :
    (∃ f, s.fetch = .error f ∧ t = { s with status := .faulted f }) ∨
      (∃ op, s.fetch = .ok op ∧ (∃ e, decode op = .error e) ∧
        t = { s with status := .faulted (.unknownOpcode op) }) ∨
      ∃ op i, s.fetch = .ok op ∧ decode op = .ok i ∧ exec i s = .next t := by
  unfold cpuStep at h
  split at h
  · rename_i f hf; exact .inl ⟨f, hf, by simpa [raise] using h.symm⟩
  · rename_i op hf
    split at h
    · rename_i e he; exact .inr (.inl ⟨op, hf, ⟨e, he⟩, by simpa [raise] using h.symm⟩)
    · rename_i i hi; exact .inr (.inr ⟨op, i, hf, hi, h⟩)

/-- A fetch that succeeds was at an even pc of at most 0xFFE (R43). -/
theorem State.pc_of_fetch_ok {s : State} {op : Word} (h : s.fetch = .ok op) :
    s.pc.toNat % 2 = 0 ∧ s.pc.toNat ≤ 0xFFE := by
  by_cases hb : s.pc.toNat % 2 ≠ 0 ∨ 0xFFE < s.pc.toNat
  · rw [State.fetch_bad hb] at h; simp at h
  · omega

/-- What Load can do (R114, R137): place the whole image, or raise ImageTooLarge with its length. -/
theorem loadImage_cases (b : List Byte) (s : State) :
    (loadImage b s = .next { s with mem := s.mem.putBytes 512 b } ∧ b.length ≤ 3584) ∨
      (loadImage b s = .fault (.loadFailed (.imageTooLarge b.length)) ∧ 3584 < b.length) := by
  unfold loadImage checkImage wellFormedImage maxImage
  by_cases h : b.length ≤ 3584
  · exact .inl ⟨by rw [decide_eq_true h]; rfl, h⟩
  · exact .inr ⟨by rw [decide_eq_false h]; rfl, by omega⟩

end Sys2Proof.Machine
end

