-- ==== Sys2Proof/Tests/Slice0.lean ====
section
/-! SUPPORT. The model's own tests: ill-formed terms refused, every instruction's decoding by a word written out from its
encoding, one-step tests whose results are those of spec/95_test_vectors.md, and for every statement with hypotheses the
states and operands that meet them. -/

namespace Sys2Proof.Tests

open Sys2Proof Sys2Proof.Machine

/-! ### Helpers -/

/-- The register file with the listed registers set and the others 0. -/
def regs (l : List (Nibble × Byte)) : Regs := l.foldl (fun v p => v.write p.1 p.2) (Vector.replicate 16 0#8)

/-- The launch state with the listed registers set. -/
def start (l : List (Nibble × Byte)) : State := { State.reset with v := regs l }

/-- The launch state with the listed registers and I set. -/
def startAt (i : Word) (l : List (Nibble × Byte)) : State := { start l with index := i }

/-- The state after one step that ran opcode `w`, or the state as it was if the step gave none. -/
def after (w : Nat) (s : State) : State :=
  match step (s.withFetchWord 16 w) with
  | .next t => t
  | .fault _ => s
  | .refused _ => s

/-- What a step gave. -/
def isNext : Result → Bool
  | .next _ => true
  | .fault _ => false
  | .refused _ => false

/-- The status after one step that ran opcode `w`. -/
def statusAfter (w : Nat) (s : State) : Status := (after w s).status

/-- A state whose next turn is `t`. -/
def withTurn (t : Turn) (s : State) : State := { s with sched := .fixed [t] }

/-! ### Ill-formed terms -/

/-- R137: an image of 3585 bytes is refused. -/
theorem test_image_too_long_refused : wellFormedImage (List.replicate 3585 0#8) = false := by
  rw [wellFormedImage, List.length_replicate]; rfl

/-- R137: an image of 3584 bytes is accepted. -/
theorem test_image_of_full_length_accepted : wellFormedImage (List.replicate 3584 0#8) = true := by
  rw [wellFormedImage, List.length_replicate]; rfl

/-- R108: the byte 16 names no key, 15 does. -/
theorem test_key_byte_refused : wellFormedKey 16#8 = false ∧ wellFormedKey 15#8 = true := by decide

/-- L2.1: the words of the vectors that are no instruction. -/
theorem test_unbound_words_refused :
    decode 0x0000#16 = .error (.unknownOpcode 0x0000#16) ∧ decode 0x0123#16 = .error (.unknownOpcode 0x0123#16) ∧
    decode 0x8128#16 = .error (.unknownOpcode 0x8128#16) ∧ decode 0xE1A2#16 = .error (.unknownOpcode 0xE1A2#16) ∧
    decode 0xF000#16 = .error (.unknownOpcode 0xF000#16) ∧ decode 0xFFFF#16 = .error (.unknownOpcode 0xFFFF#16) :=
  ⟨rfl, rfl, rfl, rfl, rfl, rfl⟩

/-- R56: one byte is no instruction. -/
theorem test_one_byte_refused : decodeBytes [0x60#8] = .error .truncated := rfl

/-! ### Decoding, one word per constructor, written out from the encoding of its rule -/

theorem test_decode_cls : decode 0b0000000011100000#16 = .ok .cls := rfl
theorem test_decode_ret : decode 0b0000000011101110#16 = .ok .ret := rfl
theorem test_decode_jp : decode 0b0001001000110100#16 = .ok (.jp 0x234#12) := rfl
theorem test_decode_call : decode 0b0010101010111100#16 = .ok (.call 0xABC#12) := rfl
theorem test_decode_se_imm : decode 0b0011101001111111#16 = .ok (.seVxNn 0xA#4 0x7F#8) := rfl
theorem test_decode_sne_imm : decode 0b0100101001111111#16 = .ok (.sneVxNn 0xA#4 0x7F#8) := rfl
theorem test_decode_se_reg : decode 0b0101000100101111#16 = .ok (.seVxVy 0x1#4 0x2#4) := rfl
theorem test_decode_ld_imm : decode 0b0110101000000101#16 = .ok (.ldVxNn 0xA#4 0x05#8) := rfl
theorem test_decode_add_imm : decode 0b0111110010000001#16 = .ok (.addVxNn 0xC#4 0x81#8) := rfl
theorem test_decode_ld_reg : decode 0b1000000100100000#16 = .ok (.ldVxVy 0x1#4 0x2#4) := rfl
theorem test_decode_or : decode 0b1000000100100001#16 = .ok (.orVxVy 0x1#4 0x2#4) := rfl
theorem test_decode_and : decode 0b1000000100100010#16 = .ok (.andVxVy 0x1#4 0x2#4) := rfl
theorem test_decode_xor : decode 0b1000000100100011#16 = .ok (.xorVxVy 0x1#4 0x2#4) := rfl
theorem test_decode_add_reg : decode 0b1000110011010100#16 = .ok (.addVxVy 0xC#4 0xD#4) := rfl
theorem test_decode_sub : decode 0b1000110011010101#16 = .ok (.subVxVy 0xC#4 0xD#4) := rfl
theorem test_decode_shr : decode 0b1000110011010110#16 = .ok (.shrVx 0xC#4 0xD#4) := rfl
theorem test_decode_subn : decode 0b1000110011010111#16 = .ok (.subnVxVy 0xC#4 0xD#4) := rfl
theorem test_decode_shl : decode 0b1000110011011110#16 = .ok (.shlVx 0xC#4 0xD#4) := rfl
theorem test_decode_sne_reg : decode 0b1001000100101111#16 = .ok (.sneVxVy 0x1#4 0x2#4) := rfl
theorem test_decode_ld_i : decode 0b1010000100100011#16 = .ok (.ldI 0x123#12) := rfl
theorem test_decode_jp_v0 : decode 0b1011001111111111#16 = .ok (.jpV0 0x3FF#12) := rfl
theorem test_decode_rnd : decode 0b1100011100001111#16 = .ok (.rndVxNn 0x7#4 0x0F#8) := rfl
theorem test_decode_drw : decode 0b1101001000111111#16 = .ok (.drw 0x2#4 0x3#4 0xF#4) := rfl
theorem test_decode_skp : decode 0b1110010110011110#16 = .ok (.skpVx 0x5#4) := rfl
theorem test_decode_sknp : decode 0b1110010110100001#16 = .ok (.sknpVx 0x5#4) := rfl
theorem test_decode_ld_dt : decode 0b1111001100000111#16 = .ok (.ldVxDt 0x3#4) := rfl
theorem test_decode_ld_k : decode 0b1111001100001010#16 = .ok (.ldVxK 0x3#4) := rfl
theorem test_decode_set_dt : decode 0b1111001100010101#16 = .ok (.ldDtVx 0x3#4) := rfl
theorem test_decode_set_st : decode 0b1111001100011000#16 = .ok (.ldStVx 0x3#4) := rfl
theorem test_decode_add_i : decode 0b1111001100011110#16 = .ok (.addIVx 0x3#4) := rfl
theorem test_decode_ld_f : decode 0b1111001100101001#16 = .ok (.ldFVx 0x3#4) := rfl
theorem test_decode_ld_b : decode 0b1111001100110011#16 = .ok (.ldBVx 0x3#4) := rfl
theorem test_decode_ld_mem : decode 0b1111001001010101#16 = .ok (.ldMemVx 0x2#4) := rfl
theorem test_decode_ld_from_mem : decode 0b1111001001100101#16 = .ok (.ldVxMem 0x2#4) := rfl

/-- E2: the source's two opcodes of one key. -/
theorem test_key_of_the_source : key 0x8AB4#16 = 0x8004#16 ∧ key 0x8CD4#16 = 0x8004#16 := by decide

/-! ### Control transfer and skips (L2.3) -/

/-- 2204 at 0x200: S[0] is the CALL's own address. -/
theorem test_call_pushes_its_address :
    let t := after 0x2204 (start [])
    t.pc = 0x204#16 ∧ t.sp.val = 1 ∧ t.stack[0] = 0x200#16 := by decide

/-- 2NNN with sp = 16. -/
theorem test_call_overflows : statusAfter 0x2300 { start [] with sp := 16 } = .faulted (.stackOverflow 0x200#16) := by
  decide

/-- 00EE with S[0] = 0x200, sp = 1. -/
theorem test_ret_resumes_after_the_call :
    let t := after 0x00EE { start [] with pc := 0x204#16, sp := 1, stack := Vector.replicate 16 0x200#16 }
    t.pc = 0x202#16 ∧ t.sp.val = 0 := by decide

/-- 00EE with sp = 0. -/
theorem test_ret_underflows : statusAfter 0x00EE (start []) = .faulted (.stackUnderflow 0x200#16) := by decide

/-- 1201: the target is not checked by the jump. -/
theorem test_jp_goes_to_nnn : (after 0x1201 (start [])).pc = 0x201#16 := by decide

/-- The Step after 1201. -/
theorem test_odd_target_is_bad_fetch :
    cpuStep { start [] with pc := 0x201#16 } =
      .next { start [] with pc := 0x201#16, status := .faulted (.badFetch 0x201#16) } := by rfl

/-- B3FF with V0 = FF. -/
theorem test_jp_v0_adds_v0 : (after 0xB3FF (start [(0, 0xFF)])).pc = 0x4FE#16 := by decide

/-- BFFF with V0 = FF. -/
theorem test_jp_v0_does_not_wrap : (after 0xBFFF (start [(0, 0xFF)])).pc = 0x10FE#16 := by decide

/-- 3A05 with VA = 05 and with VA = 06. -/
theorem test_se_imm : (after 0x3A05 (start [(0xA, 5)])).pc = 0x204#16 ∧
    (after 0x3A05 (start [(0xA, 6)])).pc = 0x202#16 := by decide

/-- 4A05 with VA = 05 and with VA = 06. -/
theorem test_sne_imm : (after 0x4A05 (start [(0xA, 5)])).pc = 0x202#16 ∧
    (after 0x4A05 (start [(0xA, 6)])).pc = 0x204#16 := by decide

/-- 5AB0 with VA = VB = 7, and 5121 (N ignored) with V1 = V2 = 3. -/
theorem test_se_reg : (after 0x5AB0 (start [(0xA, 7), (0xB, 7)])).pc = 0x204#16 ∧
    (after 0x5121 (start [(1, 3), (2, 3)])).pc = 0x204#16 := by decide

/-- 9AB0 with VA = VB = 7, and 912F (N ignored) with V1 = 3, V2 = 4. -/
theorem test_sne_reg : (after 0x9AB0 (start [(0xA, 7), (0xB, 7)])).pc = 0x202#16 ∧
    (after 0x912F (start [(1, 3), (2, 4)])).pc = 0x204#16 := by decide

/-! ### Register loads and the ALU (L2.2) -/

/-- 6F42. -/
theorem test_ld_imm : (after 0x6F42 (start [])).getV vf = 0x42#8 ∧ (after 0x6F42 (start [])).pc = 0x202#16 := by decide

/-- 7001 with V0 = FF, VF = 77. -/
theorem test_add_imm_wraps_without_flag :
    let t := after 0x7001 (start [(0, 0xFF), (vf, 0x77)])
    t.getV 0 = 0#8 ∧ t.getV vf = 0x77#8 := by decide

/-- 7F01 with VF = FF. -/
theorem test_add_imm_to_vf : (after 0x7F01 (start [(vf, 0xFF)])).getV vf = 0#8 := by decide

/-- 8120 with V1 = 0C, V2 = 0A. -/
theorem test_ld_reg : (after 0x8120 (start [(1, 0x0C), (2, 0x0A)])).getV 1 = 0x0A#8 := by decide

/-- 8121 with V1 = 0C, V2 = 0A, VF = 07. -/
theorem test_or : let t := after 0x8121 (start [(1, 0x0C), (2, 0x0A), (vf, 7)])
    t.getV 1 = 0x0E#8 ∧ t.getV vf = 7#8 := by decide

/-- 8122 with V1 = 0C, V2 = 0A. -/
theorem test_and : (after 0x8122 (start [(1, 0x0C), (2, 0x0A)])).getV 1 = 0x08#8 := by decide

/-- 8123 with V1 = 0C, V2 = 0A. -/
theorem test_xor : (after 0x8123 (start [(1, 0x0C), (2, 0x0A)])).getV 1 = 0x06#8 := by decide

/-- 8333 with V3 = 5A, VF = 07. -/
theorem test_xor_with_itself : let t := after 0x8333 (start [(3, 0x5A), (vf, 7)])
    t.getV 3 = 0#8 ∧ t.getV vf = 7#8 := by decide

/-- 8014 with V0 = V1 = 80. -/
theorem test_add_carries : let t := after 0x8014 (start [(0, 0x80), (1, 0x80)])
    t.getV 0 = 0#8 ∧ t.getV vf = 1#8 := by decide

/-- 8014 with V0 = 7F, V1 = 80. -/
theorem test_add_does_not_carry : let t := after 0x8014 (start [(0, 0x7F), (1, 0x80)])
    t.getV 0 = 0xFF#8 ∧ t.getV vf = 0#8 := by decide

/-- 8015 with V0 = V1 = 05. -/
theorem test_sub_of_equals : let t := after 0x8015 (start [(0, 5), (1, 5)])
    t.getV 0 = 0#8 ∧ t.getV vf = 1#8 := by decide

/-- 8015 with V0 = 05, V1 = 06. -/
theorem test_sub_borrows : let t := after 0x8015 (start [(0, 5), (1, 6)])
    t.getV 0 = 0xFF#8 ∧ t.getV vf = 0#8 := by decide

/-- 8016 with V0 = FF, V1 = 33. -/
theorem test_shr_shifts_vx : let t := after 0x8016 (start [(0, 0xFF), (1, 0x33)])
    t.getV 0 = 0x7F#8 ∧ t.getV vf = 1#8 ∧ t.getV 1 = 0x33#8 := by decide

/-- 8016 with V0 = 80, V1 = 33. -/
theorem test_shr_clears_the_flag : let t := after 0x8016 (start [(0, 0x80), (1, 0x33)])
    t.getV 0 = 0x40#8 ∧ t.getV vf = 0#8 := by decide

/-- 8017 with V0 = 01, V1 = FF. -/
theorem test_subn : let t := after 0x8017 (start [(0, 1), (1, 0xFF)])
    t.getV 0 = 0xFE#8 ∧ t.getV vf = 1#8 := by decide

/-- 8017 with V0 = 06, V1 = 05. -/
theorem test_subn_borrows : let t := after 0x8017 (start [(0, 6), (1, 5)])
    t.getV 0 = 0xFF#8 ∧ t.getV vf = 0#8 := by decide

/-- 800E with V0 = FF: the flag is the raw bit. -/
theorem test_shl_sets_the_raw_bit : let t := after 0x800E (start [(0, 0xFF)])
    t.getV 0 = 0xFE#8 ∧ t.getV vf = 0x80#8 := by decide

/-- 800E with V0 = 7F. -/
theorem test_shl_clears_the_flag : let t := after 0x800E (start [(0, 0x7F)])
    t.getV 0 = 0xFE#8 ∧ t.getV vf = 0#8 := by decide

/-- VF as operand, `result_then_flag`: 8F04, 80F4, 8F05, 8F07, 8FF6, 8FFE. -/
theorem test_vf_operand_result_then_flag :
    (flagOp .resultThenFlag vf 0 addResult addFlag (start [(vf, 0xF0), (0, 0x20)])).getV vf = 0x01#8 ∧
    (flagOp .resultThenFlag 0 vf addResult addFlag (start [(0, 0x10), (vf, 0xF5)])).getV 0 = 0x05#8 ∧
    (flagOp .resultThenFlag vf 0 subResult subFlag (start [(vf, 0x10), (0, 0x20)])).getV vf = 0x00#8 ∧
    (flagOp .resultThenFlag vf 0 subnResult subnFlag (start [(vf, 0x10), (0, 0x20)])).getV vf = 0x01#8 ∧
    (flagOp .resultThenFlag vf vf shrResult shrFlag (start [(vf, 3)])).getV vf = 0x01#8 ∧
    (flagOp .resultThenFlag vf vf shlResult shlFlag (start [(vf, 0xC0)])).getV vf = 0x80#8 := by decide

/-- VF as operand, `flag_then_result`: the same six. -/
theorem test_vf_operand_flag_then_result :
    (flagOp .flagThenResult vf 0 addResult addFlag (start [(vf, 0xF0), (0, 0x20)])).getV vf = 0x21#8 ∧
    (flagOp .flagThenResult 0 vf addResult addFlag (start [(0, 0x10), (vf, 0xF5)])).getV 0 = 0x11#8 ∧
    (flagOp .flagThenResult vf 0 subResult subFlag (start [(vf, 0x10), (0, 0x20)])).getV vf = 0xE0#8 ∧
    (flagOp .flagThenResult vf 0 subnResult subnFlag (start [(vf, 0x10), (0, 0x20)])).getV vf = 0x1F#8 ∧
    (flagOp .flagThenResult vf vf shrResult shrFlag (start [(vf, 3)])).getV vf = 0x00#8 ∧
    (flagOp .flagThenResult vf vf shlResult shlFlag (start [(vf, 0xC0)])).getV vf = 0x00#8 := by decide

/-- C00F: the draw is free, and masked. -/
theorem test_rnd_masks_the_draw : (after 0xC00F (start [])).getV 0 = Config.rand 0 &&& 0x0F#8 := by rfl

/-- C000 gives 0 whatever the draw. -/
theorem test_rnd_with_empty_mask : (after 0xC000 (start [])).getV 0 = 0#8 := by
  show Config.rand 0 &&& 0x00#8 = 0#8
  simp

/-! ### The index register and memory (L2.4) -/

/-- A123. -/
theorem test_ld_i : (after 0xA123 (start [])).index = 0x123#16 := by decide

/-- F11E with I = FF8, V1 = 10, VF = 09. -/
theorem test_add_i_wraps : let t := after 0xF11E (startAt 0xFF8#16 [(1, 0x10), (vf, 9)])
    t.index = 0x008#16 ∧ t.getV vf = 9#8 := by decide

/-- F129 with V1 = FF: no mask. -/
theorem test_ld_f_does_not_mask : (after 0xF129 (start [(1, 0xFF)])).index = 0x4FB#16 := by decide

/-- F129 with V1 = 0F. -/
theorem test_ld_f_last_glyph : (after 0xF129 (start [(1, 0x0F)])).index = 0x4B#16 := by decide

/-- F133 with V1 = 157, I = FFD. -/
theorem test_bcd_at_the_top : let t := after 0xF133 (startAt 0xFFD#16 [(1, 157)])
    t.mem.bytes 0xFFD 3 = [1#8, 5#8, 7#8] ∧ t.index = 0xFFD#16 := by decide

/-- F133 with V1 = 157, I = FFE. -/
theorem test_bcd_out_of_range : statusAfter 0xF133 (startAt 0xFFE#16 [(1, 157)]) = .faulted (.memOutOfRange 0x1000) := by
  decide

/-- F355 with four registers at I = FFC, the top of memory. -/
theorem test_store_at_the_top : let t := after 0xF355 (startAt 0xFFC#16 [(0, 0x11), (1, 0x22), (2, 0x33), (3, 0x44)])
    t.mem.bytes 0xFFC 4 = [0x11#8, 0x22#8, 0x33#8, 0x44#8] ∧ t.index = 0xFFC#16 := by decide

/-- FF55 with I = FF1: nothing is written. -/
theorem test_store_out_of_range : let t := after 0xFF55 (startAt 0xFF1#16 [])
    t.status = .faulted (.memOutOfRange 0x1000) ∧ t.mem = ((startAt 0xFF1#16 []).withFetchWord 16 0xFF55).mem := by decide

/-- F265 with I = 005: the first rows of glyph 1. -/
theorem test_load_reads_the_font : let t := after 0xF265 (startAt 5#16 [])
    t.getV 0 = 0x20#8 ∧ t.getV 1 = 0x60#8 ∧ t.getV 2 = 0x20#8 ∧ t.index = 5#16 := by decide

/-- F165 with I = FFF. -/
theorem test_load_out_of_range : statusAfter 0xF165 (startAt 0xFFF#16 []) = .faulted (.memOutOfRange 0x1000) := by decide

/-! ### The display (L2.5) -/

/-- A launch state with `rows` at 0x300 and I = 0x300. -/
def withSprite (rows : List Byte) (l : List (Nibble × Byte)) : State :=
  { startAt 0x300#16 l with mem := State.reset.mem.putBytes 0x300 rows }

/-- 00E0 with FB(3,3) = 1, VF = 9. -/
theorem test_cls : let t := after 0x00E0 { start [(vf, 9)] with fb := Frame.blank.toggle 3 3 }
    t.fb.pixel 3 3 = false ∧ t.getV vf = 9#8 ∧ t.events = [.clear, .clear] := by decide

/-- D011 with V0 = 60: columns past 63 are dropped. -/
theorem test_drw_clips_on_the_right : let t := after 0xD011 (withSprite [0xFF#8] [(0, 60)])
    t.fb.pixel 60 0 = true ∧ t.fb.pixel 63 0 = true ∧ t.fb.pixel 59 0 = false ∧ t.fb.pixel 0 0 = false ∧
    t.getV vf = 0#8 ∧ t.events = [.clear, .draw 60 0 [0xFF#8] false] := by decide

/-- D011 over a lit pixel at (0,0): it is turned off and VF is 1. -/
theorem test_drw_collides :
    let t := after 0xD011 { withSprite [0xFF#8] [] with fb := Frame.blank.toggle 0 0 }
    t.fb.pixel 0 0 = false ∧ t.fb.pixel 1 0 = true ∧ t.getV vf = 1#8 := by decide

/-! ### Timers and input (L2.6) -/

/-- F107 with DT = 2A. -/
theorem test_read_dt : (after 0xF107 { start [] with dt := 0x2A#8 }).getV 1 = 0x2A#8 := by decide

/-- F115 with V1 = 3C. -/
theorem test_set_dt : (after 0xF115 (start [(1, 0x3C)])).dt = 0x3C#8 := by decide

/-- F118 with V1 = 02. -/
theorem test_set_st : (after 0xF118 (start [(1, 2)])).st = 2#8 := by decide

/-- E19E with V1 = 5: the answer of KeyHeld(5) decides. -/
theorem test_skp : (after 0xE19E (start [(1, 5)])).pc = 0x200#16 + (if Config.keyHeld 0 5 then 4#16 else 2#16) := by rfl

/-- E19E with V1 = 10. -/
theorem test_skp_out_of_range : statusAfter 0xE19E (start [(1, 0x10)]) = .faulted (.keyOutOfRange 0x10#8) := by decide

/-- E1A1 with V1 = 5. -/
theorem test_sknp : (after 0xE1A1 (start [(1, 5)])).pc = 0x200#16 + (if !Config.keyHeld 0 5 then 4#16 else 2#16) := by rfl

/-- E1A1 with V1 = 10. -/
theorem test_sknp_out_of_range : statusAfter 0xE1A1 (start [(1, 0x10)]) = .faulted (.keyOutOfRange 0x10#8) := by decide

/-- FF0A suspends. -/
theorem test_key_wait_suspends : let t := after 0xFF0A (start [])
    t.status = .waitingKey vf ∧ t.pc = 0x200#16 := by decide

/-- KeyDelivered(C) completes FF0A. -/
theorem test_key_delivered : let t := { start [] with status := .waitingKey vf }.keyDelivered 0xC
    t.getV vf = 0x0C#8 ∧ t.pc = 0x202#16 ∧ t.status = .running := by decide

/-- A Tick with DT = 0, ST = 1. -/
theorem test_tick_beeps_once : let t := { start [] with st := 1#8 }.tick
    t.dt = 0#8 ∧ t.st = 0#8 ∧ t.events = [.clear, .beep] := by decide

/-- A Tick with DT = 5, ST = 0. -/
theorem test_tick_counts_dt : let t := { start [] with dt := 5#8 }.tick
    t.dt = 4#8 ∧ t.events = [.clear] := by decide

/-- E9: cancellation while waiting. -/
theorem test_cancel_while_waiting : let t := { start [] with status := .waitingKey 3 }.cancel
    t.status = .stopped ∧ t.getV 3 = 0#8 ∧ t.pc = 0x200#16 := by decide

/-! ### Fetch and faults (L2.7) -/

/-- pc = 0xFFE with 60 07 there. -/
theorem test_fetch_at_the_top : let t := after 0x6007 { start [] with pc := 0xFFE#16 }
    t.getV 0 = 7#8 ∧ t.pc = 0x1000#16 ∧ t.status = .running := by decide

/-- A fetch at 0x1000. -/
theorem test_fetch_past_the_top : statusAfter 0x6007 { start [] with pc := 0x1000#16 } = .faulted (.badFetch 0x1000#16) := by
  decide

/-- BadFetch comes before decoding: 01 23 at 0x201. -/
theorem test_bad_fetch_before_decode :
    statusAfter 0x0123 { start [] with pc := 0x201#16 } = .faulted (.badFetch 0x201#16) := by decide

/-- P8: the unbound opcode 0x0123. -/
theorem test_unknown_opcode : statusAfter 0x0123 (start []) = .faulted (.unknownOpcode 0x0123#16) := by decide

/-- R112: the codes of the seven faults. -/
theorem test_fault_codes :
    [faultCode (.unknownOpcode 0), faultCode (.imageTooLarge 0), faultCode (.badFetch 0), faultCode (.memOutOfRange 0),
      faultCode (.stackOverflow 0), faultCode (.stackUnderflow 0), faultCode (.keyOutOfRange 0)] =
      [1, 2, 3, 4, 5, 6, 7] := by decide

/-- E1, R112: Load of 3585 bytes is ImageTooLarge(3585), code 2. -/
theorem test_load_too_large_is_code_2 :
    loadImage (List.replicate 3585 0#8) (start []) = .fault (.loadFailed (.imageTooLarge 3585)) ∧
    (stopReason (.loadFailed (.imageTooLarge 3585))).map faultCode = some 2 := by
  refine ⟨?_, rfl⟩
  have hl : (List.replicate 3585 0#8).length = 3585 := List.length_replicate
  rcases loadImage_cases (List.replicate 3585 0#8) (start []) with ⟨_, h⟩ | ⟨h, _⟩
  · rw [hl] at h; exact absurd h (by decide)
  · rw [h, hl]

/-! ### Witnesses: for each statement with hypotheses, states and operands that meet them, each clause at a boundary -/

/-- EncodeOfDecodeKeepsEveryUsedBit: a class whose low nibble is ignored, and one where it is not. -/
theorem test_witness_encode_of_decode :
    decode 0x512F#16 = .ok (.seVxVy 1 2) ∧ encode (.seVxVy 1 2) = 0x512F#16 &&& 0xFFF0#16 ∧
    decode 0x8124#16 = .ok (.addVxVy 1 2) ∧ encode (.addVxVy 1 2) = 0x8124#16 := ⟨rfl, rfl, rfl, rfl⟩

/-- DispatchKeyMasksByClass: each class at the ends of its range. -/
theorem test_witness_dispatch_key :
    (0x0FFF#16).toNat / 4096 = 0 ∧ key 0x0FFF#16 = 0x0FFF#16 ∧
    (0x8FFF#16).toNat / 4096 = 8 ∧ key 0x8FFF#16 = 0x800F#16 ∧
    (0xE000#16).toNat / 4096 = 0xE ∧ key 0xE000#16 = 0xE000#16 ∧
    (0xFFFF#16).toNat / 4096 = 0xF ∧ key 0xFFFF#16 = 0xF0FF#16 ∧
    (0xDFFF#16).toNat / 4096 = 0xD ∧ key 0xDFFF#16 = 0xD000#16 := by decide

/-- UnboundKeyRaisesUnknownOpcode: a state that fetches an unbound opcode, and a bound key. -/
theorem test_witness_unbound_key :
    ((start []).withFetchWord 16 0x8128).fetch = .ok 0x8128#16 ∧ key 0x8128#16 ∉ handlerKeys ∧
    key 0x00E0#16 ∈ handlerKeys := ⟨rfl, by decide, by decide⟩

/-- FetchIsCheckedAndBigEndian: the last fetchable pc, the odd one after it and the first past memory. -/
theorem test_witness_fetch :
    (0xFFE#16).toNat % 2 = 0 ∧ (0xFFE#16).toNat ≤ 0xFFE ∧
    ({ start [] with pc := 0xFFE#16 }.withFetchWord 16 0x6007).fetch = .ok 0x6007#16 ∧
    { start [] with pc := 0xFFF#16 }.fetch = .error (.badFetch 0xFFF#16) ∧
    { start [] with pc := 0x1000#16 }.fetch = .error (.badFetch 0x1000#16) := ⟨rfl, by decide, rfl, rfl, rfl⟩

/-- StepRunsTheDecodedInstruction. -/
theorem test_witness_step_runs :
    let s := (start []).withFetchWord 16 0x6A05
    s.status = .running ∧ s.takeTurn.1 = .cpu ∧ s.pc.toNat % 2 = 0 ∧ s.pc.toNat ≤ 0xFFE ∧
    decodeBytes [s.mem.get s.pc.toNat, s.mem.get (s.pc.toNat + 1)] = .ok (.ldVxNn 0xA 5, []) :=
  ⟨rfl, rfl, rfl, by decide, rfl⟩

/-- EndedRunTakesNoStep: a faulted and a stopped state. -/
theorem test_witness_ended_run :
    step { start [] with status := .faulted (.badFetch 1) } = .fault (.runFaulted (.badFetch 1)) ∧
    step { start [] with status := .stopped } = .fault .runStopped := ⟨rfl, rfl⟩

/-- FaultEntryIsPrecise: RET with an empty stack. -/
theorem test_witness_fault_entry :
    ∃ t, step ((start []).withFetchWord 16 0x00EE) = .next t ∧ t.status = .faulted (.stackUnderflow 0x200#16) :=
  ⟨_, rfl, rfl⟩

/-- OnlyTheListedInstructionsFault: each listed case at the boundary of its condition. -/
theorem test_witness_listed_faults :
    (∃ t, exec .ret (start []) = .next t ∧ t.status = .faulted (.stackUnderflow 0x200#16)) ∧
    (∃ t, exec (.call 0) { start [] with sp := 16 } = .next t ∧ t.status = .faulted (.stackOverflow 0x200#16)) ∧
    (∃ t, exec (.drw 0 0 1) (startAt 0x1000#16 []) = .next t ∧ t.status = .faulted (.memOutOfRange 0x1000)) ∧
    (∃ t, exec (.ldBVx 0) (startAt 0xFFE#16 []) = .next t ∧ t.status = .faulted (.memOutOfRange 0x1000)) ∧
    (∃ t, exec (.ldMemVx 15) (startAt 0xFF1#16 []) = .next t ∧ t.status = .faulted (.memOutOfRange 0x1000)) ∧
    (∃ t, exec (.ldVxMem 0) (startAt 0x1001#16 []) = .next t ∧ t.status = .faulted (.memOutOfRange 0x1001)) ∧
    (∃ t, exec (.skpVx 1) (start [(1, 16)]) = .next t ∧ t.status = .faulted (.keyOutOfRange 16#8)) ∧
    (∃ t, exec (.sknpVx 1) (start [(1, 16)]) = .next t ∧ t.status = .faulted (.keyOutOfRange 16#8)) :=
  ⟨⟨_, rfl, rfl⟩, ⟨_, rfl, rfl⟩, ⟨_, rfl, rfl⟩, ⟨_, rfl, rfl⟩, ⟨_, rfl, rfl⟩, ⟨_, rfl, rfl⟩, ⟨_, rfl, rfl⟩, ⟨_, rfl, rfl⟩⟩

/-- A state in the middle of a run: one live stack entry, a listed byte, I at the top of memory. -/
def midRun : State :=
  { startAt 0xFFF#16 [(0, 5)] with
    pc := 0x204#16, sp := 1, stack := Vector.replicate 16 0x200#16, mem := [(0x204, 0x00#8), (0x205, 0xEE#8)]
    sched := .fixed [] }

/-- InvariantKeptByEveryStep: a state of a run, not the reset state, that meets the invariant and steps. -/
theorem test_witness_invariant : Inv midRun ∧ ∃ t, step midRun = .next t ∧ t.pc = 0x202#16 :=
  ⟨⟨by decide, by decide, by decide, by unfold Fetchable; decide, fun _ h => Status.noConfusion h⟩, _, rfl, rfl⟩

/-- InvariantKeptByEveryStep: a waiting state to which a key is delivered. -/
theorem test_witness_invariant_waiting :
    Inv (withTurn (.keyDelivered 3) { midRun with status := .waitingKey 2 }) ∧
    ∃ t, step (withTurn (.keyDelivered 3) { midRun with status := .waitingKey 2 }) = .next t ∧ t.getV 2 = 3#8 :=
  ⟨⟨by decide, by decide, by decide, by unfold Fetchable; decide, fun _ _ => by unfold Fetchable; decide⟩, _, rfl, rfl⟩

/-- The four frames: a storing form and an address just below and just past its bytes, and a register that is no
destination beside one that is. -/
theorem test_witness_frames :
    ∃ t, exec (.ldMemVx 1) (startAt 0x300#16 []) = .next t ∧ (Instr.ldMemVx 1).mayWrite 0 = false ∧
      ¬ ((startAt 0x300#16 []).transferAddr ≤ 0x2FF ∧ 0x2FF < (startAt 0x300#16 []).transferAddr + 2) ∧
      ¬ ((startAt 0x300#16 []).transferAddr ≤ 0x302 ∧ 0x302 < (startAt 0x300#16 []).transferAddr + 2) ∧
      (Instr.ldVxMem 1).mayWrite 1 = true ∧ (Instr.ldVxMem 1).mayWrite 2 = false :=
  ⟨_, rfl, by decide⟩

/-- SpecialRegisterFrameOfEveryInstruction: an instruction of none of the named kinds. -/
theorem test_witness_special_frame :
    (∃ t, exec .cls midRun = .next t) ∧ (∀ n, Instr.cls ≠ .ldI n) ∧ (∀ x, Instr.cls ≠ .addIVx x) ∧
    (∀ x, Instr.cls ≠ .ldFVx x) ∧ (∀ x, Instr.cls ≠ .ldDtVx x) ∧ (∀ x, Instr.cls ≠ .ldStVx x) ∧
    (∀ n, Instr.cls ≠ .call n) ∧ Instr.cls ≠ .ret :=
  ⟨⟨_, rfl⟩, nofun, nofun, nofun, nofun, nofun, nofun, nofun⟩

/-- OutputAndStatusFrameOfEveryInstruction: an instruction of none of the named kinds. -/
theorem test_witness_output_frame :
    (∃ t, exec .ret midRun = .next t) ∧ Instr.ret ≠ .cls ∧ (∀ x y n, Instr.ret ≠ .drw x y n) ∧
    (∀ x, Instr.ret ≠ .ldVxK x) := ⟨⟨_, rfl⟩, nofun, nofun, nofun⟩

/-- ReturnResumesAfterTheCall: sp = 1, sp = 16 and sp = 0. -/
theorem test_witness_return :
    midRun.sp.val = 0 + 1 ∧ { midRun with sp := 16 }.sp.val = 15 + 1 ∧ (start []).sp.val = 0 := by decide

/-- CallPushesItsOwnAddress: sp = 0, sp = 15 and sp = 16. -/
theorem test_witness_call :
    (∃ t, exec (.call 0x300) (start []) = .next t ∧ t.sp.val = 1) ∧
    (∃ t, exec (.call 0x300) { start [] with sp := 15 } = .next t ∧ t.sp.val = 16 ∧ t.stack[15] = 0x200#16) ∧
    { start [] with sp := 16 }.sp.val = 16 := ⟨⟨_, rfl, rfl⟩, ⟨_, rfl, rfl, rfl⟩, rfl⟩

/-- SkipsOnAnImmediate and SkipsOnTwoRegisters: equal and unequal operands. -/
theorem test_witness_skips :
    (start [(0xA, 5)]).getV 0xA = 5#8 ∧ (start [(0xA, 6)]).getV 0xA ≠ 5#8 ∧
    (start [(1, 3), (2, 3)]).getV 1 = (start [(1, 3), (2, 3)]).getV 2 ∧
    (start [(1, 3), (2, 4)]).getV 1 ≠ (start [(1, 3), (2, 4)]).getV 2 := by decide

/-- FlagOpUnderEachWriteOrder: X and Y that are not F, and the neighbours of F. -/
theorem test_witness_flag_op : (0xE : Nibble) ≠ vf ∧ (0 : Nibble) ≠ vf ∧ (0xF : Nibble) = vf := by decide

/-- The clauses of BcdStoresThreeDigits: the last I that fits, and the first that does not. -/
theorem test_witness_bcd :
    (∃ t, exec (.ldBVx 1) (startAt 0xFFD#16 [(1, 157)]) = .next t ∧ t.status = .running) ∧
    (startAt 0xFFD#16 []).index.toNat ≤ 0xFFD ∧ 0xFFD < (startAt 0xFFE#16 []).index.toNat ∧
    (∃ t, exec (.ldBVx 1) (startAt 0xFFE#16 []) = .next t ∧ t.status = .faulted (.memOutOfRange 0x1000)) :=
  ⟨⟨_, rfl, rfl⟩, by decide, by decide, ⟨_, rfl, rfl⟩⟩

/-- The clauses of StoreRegistersCopiesToMemory and LoadRegistersCopiesFromMemory at I + X = 0xFFF and 0x1000. -/
theorem test_witness_store_and_load :
    (startAt 0xFFE#16 []).index.toNat + (1 : Nibble).toNat ≤ 0xFFF ∧
    0xFFF < (startAt 0xFFE#16 []).index.toNat + (2 : Nibble).toNat ∧
    (∃ t, exec (.ldMemVx 1) (startAt 0xFFE#16 []) = .next t ∧ t.status = .running) ∧
    (∃ t, exec (.ldVxMem 1) (startAt 0xFFE#16 []) = .next t ∧ t.status = .running) ∧
    (∃ t, exec (.ldMemVx 2) (startAt 0xFFE#16 []) = .next t ∧ t.status = .faulted (.memOutOfRange 0x1000)) ∧
    (∃ t, exec (.ldVxMem 2) (startAt 0xFFE#16 []) = .next t ∧ t.status = .faulted (.memOutOfRange 0x1000)) :=
  ⟨by decide, by decide, ⟨_, rfl, rfl⟩, ⟨_, rfl, rfl⟩, ⟨_, rfl, rfl⟩, ⟨_, rfl, rfl⟩⟩

/-- The clauses of AccessesAreRangeChecked: 0xFFF and 0x1000, a range that ends at 0xFFF and one past it, an empty range. -/
theorem test_witness_range_check :
    checkRange 0xFFE 2 = .ok () ∧ checkRange 0xFFE 3 = .error (.memOutOfRange 0x1000) ∧ checkRange 0x1000 0 = .ok () ∧
    checkRange 0x1001 1 = .error (.memOutOfRange 0x1001) ∧
    (start []).memRead 0x1000 = .error (.memOutOfRange 0x1000) ∧
    (start []).memRead 0xFFF = .ok ((start []).mem.get 0xFFF) := ⟨rfl, rfl, rfl, rfl, rfl, rfl⟩

/-- StoreIsSeenByTheNextFetch: F155 with I at the next instruction writes 6007 there. -/
theorem test_witness_store_is_fetched :
    ∃ t, exec (.ldMemVx 1) (startAt 0x202#16 [(0, 0x60), (1, 0x07)]) = .next t ∧ t.status = .running ∧
      t.fetch = .ok 0x6007#16 ∧ (startAt 0x202#16 []).index.toNat ≤ t.pc.toNat ∧
      t.pc.toNat + 1 ≤ (startAt 0x202#16 []).index.toNat + (1 : Nibble).toNat :=
  ⟨_, rfl, rfl, rfl, by decide, by decide⟩

/-- BlitTogglesCoveredPixels: the last cell of the grid, covered and lit. -/
theorem test_witness_blit :
    spriteCovers 63 31 [0x80#8] 63 31 = true ∧ (Frame.blank.toggle 63 31).pixel 63 31 = true ∧
    ((Frame.blank.toggle 63 31).blit 63 31 [0x80#8]).2 = true ∧ (Frame.blank.blit 63 31 [0x80#8]).2 = false := by decide

/-- The clauses of DrawReadsBlitsAndSetsVf: no rows at any I, rows that end at 0xFFF, rows that do not fit. -/
theorem test_witness_draw :
    (∃ t, exec (.drw 0 1 0) (startAt 0xFFF#16 [(vf, 7)]) = .next t ∧ t.getV vf = 0#8 ∧
      t.events = [.clear, .draw 0 0 [] false]) ∧
    ((startAt 0xFFE#16 []).index.toNat + (2 : Nibble).toNat - 1 ≤ 0xFFF) ∧
    (0 < (2 : Nibble).toNat ∧ 0xFFF < (startAt 0xFFF#16 []).index.toNat + (2 : Nibble).toNat - 1) ∧
    (∃ t, exec (.drw 0 1 2) (startAt 0xFFF#16 [(vf, 7)]) = .next t ∧ t.getV vf = 7#8 ∧
      t.status = .faulted (.memOutOfRange 0x1000)) :=
  ⟨⟨_, rfl, rfl, rfl⟩, by decide, by decide, ⟨_, rfl, rfl, rfl⟩⟩

/-- DrawingTwiceRestoresTheScreen, and E5: the source's sprite, drawn twice on a clear display. -/
theorem test_witness_draw_twice :
    (0 : Nibble) ≠ vf ∧ (1 : Nibble) ≠ vf ∧ (withSprite [0xFF#8] []).index.toNat + (1 : Nibble).toNat - 1 ≤ 0xFFF ∧
    ((withSprite [0xFF#8] []).fb.blit 0 0 [0xFF#8]).2 = false ∧
    (((withSprite [0xFF#8] []).fb.blit 0 0 [0xFF#8]).1.blit 0 0 [0xFF#8]).2 = true := by decide

/-- KeySkipsFollowTheAnswer: the last key, and the first byte that is none. -/
theorem test_witness_key_skips :
    ((start [(1, 15)]).getV 1).toNat = (15 : Key).val ∧ 15 < ((start [(1, 16)]).getV 1).toNat := by decide

/-- DeliveredKeyCompletesTheWait and KeyWaitEndsOnlyByKeyOrCancel: a waiting state whose turn is a key, a tick, a cancel
or the instruction clock's. -/
theorem test_witness_key_wait :
    let s : State := { start [] with status := .waitingKey vf, st := 1#8 }
    (∃ t, step (withTurn (.keyDelivered 0xC) s) = .next t ∧ t.getV vf = 0x0C#8) ∧
    (∃ t, step (withTurn .tick s) = .next t ∧ t.status = .waitingKey vf ∧ t.st = 0#8) ∧
    (∃ t, step (withTurn .cancel s) = .next t ∧ t.status = .stopped) ∧
    (∃ t, step (withTurn .cpu s) = .next t ∧ t.status = .waitingKey vf) :=
  ⟨⟨_, rfl, rfl⟩, ⟨_, rfl, rfl, rfl⟩, ⟨_, rfl, rfl⟩, ⟨_, rfl, rfl⟩⟩

/-- TickCountsDownAndBeeps: a tick while running, with ST at 0 and at 1. -/
theorem test_witness_tick :
    (withTurn .tick (start [])).takeTurn.1 = .tick ∧
    (∃ t, step (withTurn .tick (start [])) = .next t ∧ t.events = [.clear]) ∧
    (∃ t, step (withTurn .tick { start [] with st := 1#8 }) = .next t ∧ t.events = [.clear, .beep]) :=
  ⟨rfl, ⟨_, rfl, rfl⟩, ⟨_, rfl, rfl⟩⟩

/-- CancelStopsTheRun: a running state whose turn is a cancel. -/
theorem test_witness_cancel :
    (withTurn .cancel (start [])).status = .running ∧ (withTurn .cancel (start [])).takeTurn.1 = .cancel ∧
    ∃ t, step (withTurn .cancel (start [])) = .next t ∧ t.status = .stopped := ⟨rfl, rfl, _, rfl, rfl⟩

/-- DisabledTransitionIsNotTaken: a key while running, the instruction clock while waiting. -/
theorem test_witness_disabled :
    (withTurn (.keyDelivered 1) (start [])).takeTurn.1 = .keyDelivered 1 ∧
    (withTurn .cpu { start [] with status := .waitingKey 2 }).takeTurn.1 = .cpu := ⟨rfl, rfl⟩

/-- ResetEstablishesTheLaunchValues: the last font byte and the first and last byte of INIT_MEM. -/
theorem test_witness_reset :
    State.reset.mem.get 79 = 0x80#8 ∧ State.reset.mem.get 80 = Config.initMem 80 ∧
    State.reset.mem.get 4095 = Config.initMem 4095 := ⟨rfl, rfl, rfl⟩

/-- LoadPlacesTheImageOrFails and LaunchMemoryForEveryFont: images of 3584 and of 3585 bytes. -/
theorem test_witness_load :
    (List.replicate 3584 0xAA#8).length ≤ 3584 ∧ 3584 < (List.replicate 3585 0xAA#8).length := by
  rw [List.length_replicate, List.length_replicate]; decide

/-- P1: the launch of a two-instruction image places its bytes from 0x200 up. -/
theorem test_launch_places_the_image :
    ∃ t, launch [0x6A#8, 0x05#8, 0x12#8, 0x00#8] = .next t ∧ t.mem.bytes 0x200 4 = [0x6A#8, 0x05#8, 0x12#8, 0x00#8] ∧
      t.fetch = .ok 0x6A05#16 := ⟨_, rfl, rfl, rfl⟩

end Sys2Proof.Tests
end

section
/-! SUPPORT. What executing an instruction can do, in the fifteen shapes the handlers of R60 take. -/

namespace Sys2Proof.Machine

/-- `Effect s i t`: executing `i` in `s` may answer `t`. One rule for each kind of effect, not for each instruction, with
what the frames and the invariant need to know of the values written. -/
inductive Effect (s : State) : Instr → State → Prop where
  /-- a fault is taken (R116) -/
  | fault {i : Instr} (f : FaultReason) : Effect s i { s with status := .faulted f }
  /-- one register is written; CXNN takes a draw before it (R81 to R86, R92, R105) -/
  | putReg {i : Instr} (x : Nibble) (b : Byte) (n : Nat) (hx : i.mayWrite x = true) :
      Effect s i ({ s with draws := n }.putReg x b)
  /-- a flag writer (R80) -/
  | flagOp {i : Instr} (o : VfWriteOrder) (x y : Nibble) (r f : Byte → Byte → Byte) (hx : i.mayWrite x = true)
      (hf : i.mayWrite vf = true) : Effect s i (flagOp o x y r f s)
  /-- a skip; EX9E and EXA1 take a draw before it (R74 to R77, R108, R109) -/
  | skip {i : Instr} (c : Bool) (n : Nat) : Effect s i ({ s with draws := n }.skipIf c)
  /-- a jump (R72, R78) -/
  | jump {i : Instr} (a : Word) (ha : a.toNat ≤ 0x10FE) : Effect s i { s with pc := a }
  /-- a completed RET (R71) -/
  | ret (h : 0 < s.sp.val) :
      Effect s .ret { s with sp := ⟨s.sp.val - 1, by omega⟩, pc := s.stack[s.sp.val - 1] + 2#16 }
  /-- a completed CALL (R73) -/
  | call (nnn : Addr) (h : s.sp.val < 16) :
      Effect s (.call nnn)
        { s with stack := s.stack.set s.sp.val s.pc h, sp := ⟨s.sp.val + 1, by omega⟩, pc := addrOf nnn }
  /-- 00E0 (R100) -/
  | clear : Effect s .cls (({ s with fb := Frame.blank }.emit .clear).advance 2#16)
  /-- a completed DXYN (R101) -/
  | draw (x y n : Nibble) (x0 y0 : Byte) (rows : List Byte) : Effect s (.drw x y n) (s.drawSprite x0 y0 rows)
  /-- the index register is written (R94 to R96) -/
  | putIndex {i : Instr} (a : Word) (ha : a.toNat ≤ 0xFFF)
      (hi : (∃ nnn, i = .ldI nnn) ∨ (∃ x, i = .addIVx x) ∨ ∃ x, i = .ldFVx x) : Effect s i (s.putIndex a)
  /-- a completed store (R97, R98) -/
  | store {i : Instr} (bs : List Byte) (h : s.transferAddr + bs.length ≤ 4096) :
      Effect s i ({ s with mem := s.mem.putBytes s.transferAddr bs }.advance 2#16)
  /-- a completed FX65 (R99) -/
  | load (x : Nibble) (bs : List Byte) (h : bs.length = x.toNat + 1) :
      Effect s (.ldVxMem x) ({ s with v := s.v.writeBlock 0 bs }.advance 2#16)
  /-- FX15 (R106) -/
  | setDt (x : Nibble) (b : Byte) : Effect s (.ldDtVx x) ({ s with dt := b }.advance 2#16)
  /-- FX18 (R107) -/
  | setSt (x : Nibble) (b : Byte) : Effect s (.ldStVx x) ({ s with st := b }.advance 2#16)
  /-- FX0A suspends (R110) -/
  | wait (x : Nibble) : Effect s (.ldVxK x) { s with status := .waitingKey x }

/-! ### Every instruction has one of these effects -/

theorem toNat_addrOf_le (nnn : Addr) : (addrOf nnn).toNat ≤ 0xFFF := by
  have := nnn.isLt
  simp only [addrOf, BitVec.toNat_setWidth]
  omega

/-- NNN + V0 is at most 0xFFF + 0xFF (R22, R78). -/
theorem State.toNat_indexedTarget_le (s : State) (nnn : Addr) : (s.indexedTarget nnn).toNat ≤ 0x10FE := by
  have hn := toNat_addrOf_le nnn
  have hv := (s.getV 0).isLt
  simp only [State.indexedTarget, BitVec.toNat_add, BitVec.toNat_setWidth]
  omega

/-- A handler that settles answers a next state: its fault, or the state it computed. -/
theorem settle_effect {i : Instr} {s : State} {r : Except FaultReason State} (h : ∀ u, r = .ok u → Effect s i u) :
    ∃ t, settle s r = .next t ∧ Effect s i t := by
  cases r with
  | ok u => exact ⟨u, rfl, h u rfl⟩
  | error f => exact ⟨_, rfl, .fault f⟩

theorem execRet_effect (s : State) : ∃ t, execRet s = .next t ∧ Effect s .ret t := by
  refine settle_effect fun u hu => ?_
  rcases s.pop_cases with ⟨h, e⟩ | ⟨-, e⟩ <;> rw [e] at hu <;> cases hu
  exact .ret h

theorem execCall_effect (nnn : Addr) (s : State) : ∃ t, execCall nnn s = .next t ∧ Effect s (.call nnn) t := by
  refine settle_effect fun u hu => ?_
  rcases s.push_cases s.pc with ⟨h, e⟩ | ⟨-, e⟩ <;> rw [e] at hu <;> cases hu
  exact .call nnn h

theorem execDrw_effect (x y n : Nibble) (s : State) : ∃ t, execDrw x y n s = .next t ∧ Effect s (.drw x y n) t := by
  refine settle_effect fun u hu => ?_
  rcases s.readRange_cases s.transferAddr n.toNat with ⟨e, -⟩ | ⟨e, -⟩ <;> rw [e] at hu <;> cases hu
  exact .draw ..

theorem execLdVxMem_effect (x : Nibble) (s : State) : ∃ t, execLdVxMem x s = .next t ∧ Effect s (.ldVxMem x) t := by
  refine settle_effect fun u hu => ?_
  rcases s.readRange_cases s.transferAddr (x.toNat + 1) with ⟨e, -⟩ | ⟨e, -⟩ <;> rw [e] at hu <;> cases hu
  exact .load x _ (Memory.length_bytes ..)

/-- FX33 and FX55 store a block that is not empty. -/
theorem settle_writeRange_effect (i : Instr) (s : State) {bs : List Byte} (hbs : bs ≠ []) :
    ∃ t, settle s ((s.writeRange s.transferAddr bs).map (·.advance 2#16)) = .next t ∧ Effect s i t := by
  refine settle_effect fun u hu => ?_
  rcases s.writeRange_cases s.transferAddr bs with ⟨e, h⟩ | ⟨e, -⟩ <;> rw [e] at hu <;> cases hu
  exact .store bs (h.resolve_left (by simpa using hbs))

/-- EX9E and EXA1 skip on the answer of a draw, or on its negation. -/
theorem settle_keyOf_effect (i : Instr) (s : State) (x : Nibble) (neg : Bool → Bool) :
    ∃ t, settle s ((s.keyOf x).map fun k => (s.drawKeyHeld k).2.skipIf (neg (s.drawKeyHeld k).1)) = .next t ∧
      Effect s i t := by
  refine settle_effect fun u hu => ?_
  rcases s.keyOf_cases x with ⟨k, -, e⟩ | ⟨-, e⟩ <;> rw [e] at hu <;> cases hu
  exact .skip ..

theorem putReg_effect {i : Instr} (s : State) {x : Nibble} (b : Byte) (hx : i.mayWrite x = true) :
    Effect s i (s.putReg x b) := .putReg x b s.draws hx

theorem skipIf_effect (i : Instr) (s : State) (c : Bool) : Effect s i (s.skipIf c) := .skip c s.draws

/-- Every instruction answers a next state, by one of the effects. -/
theorem exec_effect (i : Instr) (s : State) : ∃ t, exec i s = .next t ∧ Effect s i t := by
  cases i with
  | cls => exact ⟨_, rfl, .clear⟩
  | ret => exact execRet_effect s
  | jp nnn => exact ⟨_, rfl, .jump _ (Nat.le_trans (toNat_addrOf_le nnn) (by decide))⟩
  | call nnn => exact execCall_effect nnn s
  | seVxNn | sneVxNn | seVxVy | sneVxVy => exact ⟨_, rfl, skipIf_effect ..⟩
  | ldVxNn | addVxNn | ldVxVy | orVxVy | andVxVy | xorVxVy | ldVxDt =>
    exact ⟨_, rfl, putReg_effect _ _ (beq_self_eq_true _)⟩
  | addVxVy | subVxVy | shrVx | subnVxVy | shlVx =>
    exact ⟨_, rfl, .flagOp _ _ _ _ _ (by simp [Instr.mayWrite]) (by simp [Instr.mayWrite])⟩
  | ldI nnn => exact ⟨_, rfl, .putIndex _ (toNat_addrOf_le nnn) (.inl ⟨nnn, rfl⟩)⟩
  | jpV0 nnn => exact ⟨_, rfl, .jump _ (s.toNat_indexedTarget_le nnn)⟩
  | rndVxNn x nn => exact ⟨_, rfl, .putReg x _ _ (beq_self_eq_true x)⟩
  | drw x y n => exact execDrw_effect x y n s
  | skpVx x => exact settle_keyOf_effect _ s x id
  | sknpVx x => exact settle_keyOf_effect _ s x not
  | ldVxK x => exact ⟨_, rfl, .wait x⟩
  | ldDtVx x => exact ⟨_, rfl, .setDt x _⟩
  | ldStVx x => exact ⟨_, rfl, .setSt x _⟩
  | addIVx x =>
    refine ⟨_, rfl, .putIndex _ ?_ (.inr (.inl ⟨x, rfl⟩))⟩
    rw [BitVec.toNat_ofNat]; omega
  | ldFVx x =>
    have hv := (s.getV x).isLt
    refine ⟨_, rfl, .putIndex _ ?_ (.inr (.inr ⟨x, rfl⟩))⟩
    rw [BitVec.toNat_ofNat]
    exact Nat.le_trans (Nat.mod_le ..) (by omega)
  | ldBVx x => exact settle_writeRange_effect _ s (List.cons_ne_nil _ _)
  | ldMemVx x => exact settle_writeRange_effect _ s (List.ne_nil_of_length_eq_add_one (s.length_regsUpTo x))
  | ldVxMem x => exact execLdVxMem_effect x s

/-- The inversion of `exec`: the state it answers is one of the effects. -/
theorem Effect.of_exec {i : Instr} {s t : State} (h : exec i s = .next t) : Effect s i t := by
  obtain ⟨u, hu, he⟩ := exec_effect i s
  cases hu.symm.trans h
  exact he

end Sys2Proof.Machine
end

section
/-! SUPPORT. The frames of the effects, field by field (R18, R21, R23, R26 to R28, R31, R33), and the four statements
over all instructions that are made of them. -/

namespace Sys2Proof.Machine

variable {i : Instr} {s t : State}

/-! ### Registers -/

theorem Effect.getV_eq (h : Effect s i t) {z : Nibble} (hz : i.mayWrite z = false) : t.getV z = s.getV z := by
  have other {x : Nibble} (hx : i.mayWrite x = true) : x ≠ z := by
    rintro rfl
    exact Bool.noConfusion (hx.symm.trans hz)
  cases h with
  | putReg x b n hx => exact Regs.read_write_of_ne _ _ (other hx)
  | flagOp o x y r f hx hf => exact Regs.read_flagWrites_of_ne o x y r f s.v (other hx) (other hf)
  | draw => exact Regs.read_write_of_ne _ _ (other (beq_self_eq_true vf))
  | load x bs hbs =>
    have hlt : x.toNat < z.toNat := by simpa [Instr.mayWrite] using hz
    have hx := x.isLt
    exact (Regs.read_writeBlock s.v 0 bs (by omega) z).trans (dif_neg (by omega))
  | _ => rfl

/-! ### I, the timers and the stack -/

theorem Effect.index_eq (h : Effect s i t) (hI : ∀ nnn, i ≠ .ldI nnn) (hA : ∀ x, i ≠ .addIVx x)
    (hF : ∀ x, i ≠ .ldFVx x) : t.index = s.index := by
  cases h with
  | putIndex a ha hi =>
    rcases hi with ⟨nnn, hi⟩ | ⟨x, hi⟩ | ⟨x, hi⟩
    · exact absurd hi (hI nnn)
    · exact absurd hi (hA x)
    · exact absurd hi (hF x)
  | _ => rfl

theorem Effect.dt_eq (h : Effect s i t) (hi : ∀ x, i ≠ .ldDtVx x) : t.dt = s.dt := by
  cases h with
  | setDt x => exact absurd rfl (hi x)
  | _ => rfl

theorem Effect.st_eq (h : Effect s i t) (hi : ∀ x, i ≠ .ldStVx x) : t.st = s.st := by
  cases h with
  | setSt x => exact absurd rfl (hi x)
  | _ => rfl

theorem Effect.stack_eq (h : Effect s i t) (hi : ∀ nnn, i ≠ .call nnn) : t.stack = s.stack := by
  cases h with
  | call nnn => exact absurd rfl (hi nnn)
  | _ => rfl

theorem Effect.sp_eq (h : Effect s i t) (hc : ∀ nnn, i ≠ .call nnn) (hr : i ≠ .ret) : t.sp = s.sp := by
  cases h with
  | call nnn => exact absurd rfl (hc nnn)
  | ret => exact absurd rfl hr
  | _ => rfl

/-! ### Output, status and schedule -/

theorem Effect.output_eq (h : Effect s i t) (hc : i ≠ .cls) (hd : ∀ x y n, i ≠ .drw x y n) :
    t.fb = s.fb ∧ t.events = s.events := by
  cases h with
  | clear => exact absurd rfl hc
  | draw x y n => exact absurd rfl (hd x y n)
  | _ => exact ⟨rfl, rfl⟩

theorem Effect.status_eq_or_faulted (h : Effect s i t) (hi : ∀ x, i ≠ .ldVxK x) :
    t.status = s.status ∨ ∃ f, t.status = .faulted f := by
  cases h with
  | fault f => exact .inr ⟨f, rfl⟩
  | wait x => exact absurd rfl (hi x)
  | _ => exact .inl rfl

theorem Effect.sched_eq (h : Effect s i t) : t.sched = s.sched := by
  cases h <;> rfl

end Sys2Proof.Machine

namespace Sys2Proof.Machine

/-- Settles O13: an effect that writes a register is that of an instruction that may write it. -/
theorem registerFrameOfEveryInstruction : Obligations.RegisterFrameOfEveryInstruction :=
  fun _ _ _ _ h hz => (Effect.of_exec h).getV_eq hz

/-- Settles O15, field by field. -/
theorem specialRegisterFrameOfEveryInstruction : Obligations.SpecialRegisterFrameOfEveryInstruction := by
  intro i s t h
  have e := Effect.of_exec h
  exact ⟨e.index_eq, e.dt_eq, e.st_eq, e.stack_eq, e.sp_eq⟩

/-- Settles O16, field by field. -/
theorem outputAndStatusFrameOfEveryInstruction : Obligations.OutputAndStatusFrameOfEveryInstruction := by
  intro i s t h
  have e := Effect.of_exec h
  exact ⟨e.output_eq, e.status_eq_or_faulted, e.sched_eq⟩

end Sys2Proof.Machine
end

section
/-! SUPPORT. The invariant of the machine (R34): it holds after initialization, every effect of an instruction keeps it,
and so does every agent's transition. -/

namespace Sys2Proof.Machine

theorem Fetchable.toNat_add_le {pc n : Word} (h : Fetchable pc) (hn : n.toNat ≤ 4) : (pc + n).toNat ≤ 0x10FE := by
  obtain ⟨-, hle⟩ := h
  rw [BitVec.toNat_add]
  omega

variable {i : Instr} {s t : State}

/-- From a running state at a fetchable pc, every effect of an instruction keeps the invariant: the pc it leaves is a
target of at most 0x10FE or within 4 of a fetchable one, and what CALL pushes is the fetchable pc itself. -/
theorem Effect.inv (h : Effect s i t) (hs : Inv s) (hrun : s.status = .running) (hpc : Fetchable s.pc) : Inv t := by
  have next : (s.pc + 2#16).toNat ≤ 0x10FE := hpc.toNat_add_le (by decide)
  have awake {P : Prop} (x : Nibble) : s.status = .waitingKey x → P := fun hw => Status.noConfusion (hrun.symm.trans hw)
  cases h with
  | fault f => exact { hs with waiting := nofun }
  | putReg | flagOp | clear | draw | load | setDt | setSt => exact { hs with pc := next, waiting := awake }
  | skip c n => exact { hs with pc := hpc.toNat_add_le (by cases c <;> decide), waiting := awake }
  | jump a ha => exact { hs with pc := ha, waiting := awake }
  | ret h =>
    have top : Fetchable s.stack[s.sp.val - 1] := hs.stack _ _ (by omega)
    exact { hs with
      pc := top.toNat_add_le (by decide)
      stack := fun k hk hlt => hs.stack k hk (Nat.lt_of_lt_of_le hlt (Nat.sub_le ..))
      waiting := awake }
  | call nnn h =>
    refine { hs with
      pc := Nat.le_trans (toNat_addrOf_le nnn) (by decide), stack := fun k hk hlt => ?_, waiting := awake }
    have hlt : k < s.sp.val + 1 := hlt
    show Fetchable (s.stack.set s.sp.val s.pc h)[k]
    rw [Vector.getElem_set]
    split
    · exact hpc
    · exact hs.stack k hk (by omega)
  | putIndex a ha => exact { hs with index := ha, pc := next, waiting := awake }
  | store bs h => exact { hs with memory := Memory.wf_putBytes bs hs.memory h, pc := next, waiting := awake }
  | wait x => exact { hs with waiting := fun _ _ => hpc }

/-! ### The agents -/

theorem Inv.cpuStep (hs : Inv s) (hrun : s.status = .running) (h : cpuStep s = .next t) : Inv t := by
  rcases cpuStep_cases h with ⟨f, -, rfl⟩ | ⟨op, -, -, rfl⟩ | ⟨op, i, hf, -, he⟩
  · exact { hs with waiting := nofun }
  · exact { hs with waiting := nofun }
  · exact (Effect.of_exec he).inv hs hrun (State.pc_of_fetch_ok hf)

theorem Inv.tick (hs : Inv s) : Inv s.tick := by
  unfold State.tick
  split <;> exact { hs with }

theorem Inv.keyDelivered (hs : Inv s) (k : Key) : Inv (s.keyDelivered k) := by
  unfold State.keyDelivered
  split
  · rename_i x hx
    exact { hs with pc := (hs.waiting x hx).toNat_add_le (by decide), waiting := nofun }
  all_goals exact hs

theorem Inv.cancel (hs : Inv s) : Inv s.cancel := { hs with waiting := nofun }

theorem Inv.takeTurn (hs : Inv s) : Inv s.takeTurn.2 := by
  rw [State.takeTurn_eq]
  exact { hs with }

/-- The instruction clock is enabled in a running state only (R123). -/
theorem running_of_enabled_cpu {σ : Status} (h : enabled .cpu σ = true) : σ = .running := by
  cases σ with
  | running => rfl
  | _ => cases h

/-- An enabled transition, of whichever agent, keeps the invariant. -/
theorem Inv.transition (hs : Inv s) {a : Turn} (ha : enabled a s.status = true) (h : transition a s = .next t) :
    Inv t := by
  cases a with
  | cpu => exact hs.cpuStep (running_of_enabled_cpu ha) h
  | tick => cases h; exact hs.tick
  | keyDelivered k => cases h; exact hs.keyDelivered k
  | cancel => cases h; exact hs.cancel

end Sys2Proof.Machine

namespace Sys2Proof.Machine

/-- Settles O11: a step is an enabled transition after the turn is taken, or the taking of the turn alone. -/
theorem invariantKeptByEveryStep : Obligations.InvariantKeptByEveryStep := by
  intro s t hs h
  obtain ⟨-, ⟨he, ht⟩ | ⟨-, rfl⟩⟩ := step_cases h
  · rw [← State.takeTurn_status] at he
    exact hs.takeTurn.transition he ht
  · exact hs.takeTurn

/-- Settles O12: memory lists nothing, no stack entry is live, and the machine is running at 0x200. -/
theorem invariantHoldsAfterReset : Obligations.InvariantHoldsAfterReset where
  memory := Memory.wf_nil
  index := by decide
  pc := by decide
  stack _ _ h := absurd h (Nat.not_lt_zero _)
  waiting := nofun

end Sys2Proof.Machine
end

section
/-! SUPPORT. What no instruction reads (R27, R31): the sound timer and the output history so far. Both are changed by one
operation here, and executing any instruction but FX18 commutes with it. -/

namespace Sys2Proof.Machine

/-- The state with another value in ST and older events before its output history. -/
def State.perturb (φ : Byte → Byte) (older : List Event) (s : State) : State :=
  { s with st := φ s.st, events := older ++ s.events }

variable (φ : Byte → Byte) (older : List Event) (s : State)

@[simp] theorem State.transferAddr_perturb : (s.perturb φ older).transferAddr = s.transferAddr := rfl

@[simp] theorem State.readRange_perturb (a n : Nat) : (s.perturb φ older).readRange a n = s.readRange a n := rfl

@[simp] theorem State.keyOf_perturb (x : Nibble) : (s.perturb φ older).keyOf x = s.keyOf x := rfl

theorem State.drawSprite_perturb (x0 y0 : Byte) (rows : List Byte) :
    (s.perturb φ older).drawSprite x0 y0 rows = (s.drawSprite x0 y0 rows).perturb φ older := by
  simp only [State.drawSprite, State.perturb, State.emit, State.setV, State.advance, List.append_assoc]

theorem execCls_perturb : execCls (s.perturb φ older) = mapNext (State.perturb φ older) (execCls s) := by
  simp only [execCls, mapNext, State.perturb, State.emit, State.advance, List.append_assoc]

/-! ### Handlers that settle

The state a handler computes is perturbed with the state it starts from, and fault entry sets the status alone. -/

theorem settle_perturb {r r' : Except FaultReason State} (h : r' = r.map (State.perturb φ older)) :
    settle (s.perturb φ older) r' = mapNext (State.perturb φ older) (settle s r) := by
  subst h
  cases r <;> rfl

theorem execRet_perturb : execRet (s.perturb φ older) = mapNext (State.perturb φ older) (execRet s) := by
  refine settle_perturb φ older s ?_
  by_cases h : 0 < s.sp.val
  · rw [State.pop_ok h, State.pop_ok (s := s.perturb φ older) h]; rfl
  · rw [State.pop_empty h, State.pop_empty (s := s.perturb φ older) h]; rfl

theorem execCall_perturb (nnn : Addr) :
    execCall nnn (s.perturb φ older) = mapNext (State.perturb φ older) (execCall nnn s) := by
  refine settle_perturb φ older s ?_
  by_cases h : s.sp.val < 16
  · rw [State.push_ok _ h, State.push_ok (s := s.perturb φ older) _ h]; rfl
  · rw [State.push_full _ h, State.push_full (s := s.perturb φ older) _ h]; rfl

theorem execDrw_perturb (x y n : Nibble) :
    execDrw x y n (s.perturb φ older) = mapNext (State.perturb φ older) (execDrw x y n s) := by
  refine settle_perturb φ older s ?_
  rw [State.readRange_perturb, State.transferAddr_perturb]
  cases s.readRange s.transferAddr n.toNat with
  | error f => rfl
  | ok rows => exact congrArg Except.ok (State.drawSprite_perturb φ older s _ _ rows)

theorem execLdVxMem_perturb (x : Nibble) :
    execLdVxMem x (s.perturb φ older) = mapNext (State.perturb φ older) (execLdVxMem x s) := by
  refine settle_perturb φ older s ?_
  rw [State.readRange_perturb, State.transferAddr_perturb]
  cases s.readRange s.transferAddr (x.toNat + 1) <;> rfl

theorem settle_writeRange_perturb (bs : List Byte) :
    settle (s.perturb φ older) (((s.perturb φ older).writeRange s.transferAddr bs).map (·.advance 2#16)) =
      mapNext (State.perturb φ older) (settle s ((s.writeRange s.transferAddr bs).map (·.advance 2#16))) := by
  refine settle_perturb φ older s ?_
  unfold State.writeRange
  cases checkRange s.transferAddr bs.length <;> rfl

theorem settle_keyOf_perturb (x : Nibble) (neg : Bool → Bool) :
    settle (s.perturb φ older) (((s.perturb φ older).keyOf x).map fun k =>
        ((s.perturb φ older).drawKeyHeld k).2.skipIf (neg ((s.perturb φ older).drawKeyHeld k).1)) =
      mapNext (State.perturb φ older)
        (settle s ((s.keyOf x).map fun k => (s.drawKeyHeld k).2.skipIf (neg (s.drawKeyHeld k).1))) := by
  refine settle_perturb φ older s ?_
  rw [State.keyOf_perturb]
  cases s.keyOf x <;> rfl

/-! ### All instructions -/

/-- Every instruction but FX18 commutes with the perturbation. -/
theorem exec_perturb (i : Instr) (hi : ∀ x, i ≠ .ldStVx x) :
    exec i (s.perturb φ older) = mapNext (State.perturb φ older) (exec i s) := by
  cases i with
  | cls => exact execCls_perturb φ older s
  | ret => exact execRet_perturb φ older s
  | call nnn => exact execCall_perturb φ older s nnn
  | drw x y n => exact execDrw_perturb φ older s x y n
  | skpVx x => exact settle_keyOf_perturb φ older s x id
  | sknpVx x => exact settle_keyOf_perturb φ older s x not
  | ldBVx x => exact settle_writeRange_perturb φ older s (bcdDigits (s.getV x))
  | ldMemVx x => exact settle_writeRange_perturb φ older s (s.regsUpTo x)
  | ldVxMem x => exact execLdVxMem_perturb φ older s x
  | ldStVx x => exact absurd rfl (hi x)
  | _ => rfl

end Sys2Proof.Machine

namespace Sys2Proof.Machine

/-- Settles O56: the perturbation that sets ST and adds no event; FX18 overwrites ST with V[X]. -/
theorem noInstructionReadsTheSoundTimer : Obligations.NoInstructionReadsTheSoundTimer := by
  intro i s b
  by_cases hi : ∃ x, i = .ldStVx x
  · obtain ⟨x, rfl⟩ := hi
    exact congrArg Host.Outcome.next (if_pos ⟨x, rfl⟩).symm
  · simp only [if_neg hi]
    exact exec_perturb (fun _ => b) [] s i fun x h => hi ⟨x, h⟩

/-- Settles O57: the perturbation that keeps ST and adds the older events; FX18 touches no event. -/
theorem noInstructionReadsTheEvents : Obligations.NoInstructionReadsTheEvents := by
  intro i s older
  by_cases hi : ∃ x, i = .ldStVx x
  · obtain ⟨x, rfl⟩ := hi
    rfl
  · exact exec_perturb id older s i fun x h => hi ⟨x, h⟩

end Sys2Proof.Machine
end

section
/-! SUPPORT. What one access to memory gives (R40 to R43), and the two statements made of it. -/

namespace Sys2Proof.Machine

/-- Two bytes of memory as an opcode, the first as the high byte (R43). -/
theorem toNat_append_bytes (hi lo : Byte) : (hi ++ lo : Word).toNat = 256 * hi.toNat + lo.toNat := by
  have h := BitVec.toNat_append hi lo
  rw [← Nat.shiftLeft_add_eq_or_of_lt lo.isLt, Nat.shiftLeft_eq] at h
  omega

/-- A fetch that succeeds gives the two bytes at the pc, the first as the high byte (R43). -/
theorem State.toNat_of_fetch_ok {s : State} {op : Word} (h : s.fetch = .ok op) :
    op.toNat = 256 * (s.mem.get s.pc.toNat).toNat + (s.mem.get (s.pc.toNat + 1)).toNat := by
  obtain ⟨he, hr⟩ := State.pc_of_fetch_ok h
  cases (State.fetch_ok he hr).symm.trans h
  exact toNat_append_bytes _ _

/-- A Step whose fetch fails takes that fault (R64, R116, R120). -/
theorem cpuStep_of_fetch_error {s : State} {f : FaultReason} (h : s.fetch = .error f) :
    cpuStep s = .next { s with status := .faulted f } := by
  unfold cpuStep
  rw [h]
  rfl

theorem State.memRead_ok (s : State) {a : Nat} (h : a ≤ 0xFFF) : s.memRead a = .ok (s.mem.get a) :=
  if_neg (by omega)

theorem State.memRead_error (s : State) {a : Nat} (h : 0xFFF < a) : s.memRead a = .error (.memOutOfRange a) :=
  if_pos h

theorem State.memWrite_ok (s : State) {a : Nat} (b : Byte) (h : a ≤ 0xFFF) :
    s.memWrite a b = .ok { s with mem := s.mem.set a b } :=
  if_neg (by omega)

theorem State.memWrite_error (s : State) {a : Nat} (b : Byte) (h : 0xFFF < a) :
    s.memWrite a b = .error (.memOutOfRange a) :=
  if_pos h

end Sys2Proof.Machine

namespace Sys2Proof.Machine

/-- Settles O6: the checks of a fetch, and the Step that a failing one ends. -/
theorem fetchIsCheckedAndBigEndian : Obligations.FetchIsCheckedAndBigEndian := by
  intro s
  refine ⟨fun he hr => ?_, fun hbad => ?_⟩
  · have hf := State.fetch_ok he hr
    exact ⟨_, hf, State.toNat_of_fetch_ok hf⟩
  · have hf := State.fetch_bad hbad
    exact ⟨hf, cpuStep_of_fetch_error hf⟩

/-- Settles O40: the two outcomes of each of the three checks. -/
theorem accessesAreRangeChecked : Obligations.AccessesAreRangeChecked := by
  intro s a n b
  refine ⟨fun ha => ⟨s.memRead_ok ha, _, s.memWrite_ok b ha, rfl, ?_, ?_⟩,
    fun ha => ⟨s.memRead_error ha, s.memWrite_error b ha⟩, ?_, ?_⟩
  · exact Memory.get_set_self ..
  · exact fun c hc => Memory.get_set_of_ne s.mem b hc
  · rintro ⟨hn, hout⟩
    exact checkRange_error hn (by omega)
  · exact fun hin => checkRange_ok (by omega)

end Sys2Proof.Machine
end

section
/-! SUPPORT. What the instructions do to memory (R46, R97, R98): FX33 and FX55 store a block from I up, or fault; no other
instruction changes a byte. -/

namespace Sys2Proof.Machine

variable {s t : State}

/-- A handler that stores a block from I up either completes, or takes its fault and changes no byte (R46, R116). -/
theorem settle_store_cases {bs : List Byte}
    (h : settle s ((s.writeRange s.transferAddr bs).map (·.advance 2#16)) = .next t) :
    t = { s with mem := s.mem.putBytes s.transferAddr bs }.advance 2#16 ∨
      ∃ f, t = { s with status := .faulted f } := by
  rcases s.writeRange_cases s.transferAddr bs with ⟨e, -⟩ | ⟨e, -⟩ <;> rw [e] at h <;> cases h
  · exact .inl rfl
  · exact .inr ⟨_, rfl⟩

/-- A stored block leaves every byte outside it as it was. -/
theorem get_of_settle_store {bs : List Byte} {a : Nat}
    (h : settle s ((s.writeRange s.transferAddr bs).map (·.advance 2#16)) = .next t)
    (ha : ¬ (s.transferAddr ≤ a ∧ a < s.transferAddr + bs.length)) : t.mem.get a = s.mem.get a := by
  rcases settle_store_cases h with rfl | ⟨f, rfl⟩
  · exact (Memory.get_putBytes s.mem bs s.transferAddr a).trans (dif_neg ha)
  · rfl

/-- A handler that computes its state from what `r` gives keeps the memory if that computation does, for fault entry keeps
it (R116). -/
theorem mem_of_settle_map {α : Type} {r : Except FaultReason α} {g : α → State} (h : settle s (r.map g) = .next t)
    (hg : ∀ p, r = .ok p → (g p).mem = s.mem) : t.mem = s.mem := by
  cases r with
  | ok p => cases h; exact hg p rfl
  | error f => cases h; rfl

theorem State.mem_pop {p : Word × State} (h : s.pop = .ok p) : p.2.mem = s.mem := by
  rcases s.pop_cases with ⟨_, e⟩ | ⟨-, e⟩ <;> rw [e] at h <;> cases h
  rfl

theorem State.mem_push {w : Word} (h : s.push w = .ok t) : t.mem = s.mem := by
  rcases s.push_cases w with ⟨_, e⟩ | ⟨-, e⟩ <;> rw [e] at h <;> cases h
  rfl

/-- A byte of a completed FX55 from I up is the register it stores (R98). -/
theorem State.get_putBytes_regsUpTo (s : State) (x : Nibble) {a : Nat} (hle : s.index.toNat ≤ a)
    (hlt : a ≤ s.index.toNat + x.toNat) :
    (s.mem.putBytes s.transferAddr (s.regsUpTo x)).get a = s.getV (BitVec.ofNat 4 (a - s.index.toNat)) := by
  have hin : s.transferAddr ≤ a ∧ a < s.transferAddr + (s.regsUpTo x).length := by
    rw [s.length_regsUpTo x]
    exact ⟨hle, Nat.lt_succ_of_le hlt⟩
  rw [Memory.get_putBytes, dif_pos hin, State.getElem_regsUpTo]
  rfl

end Sys2Proof.Machine

namespace Sys2Proof.Machine

/-- Settles O14: FX33 and FX55 store their blocks, the six other handlers that settle keep the memory,
and every remaining meaning is an update of other fields. -/
theorem memoryFrameOfEveryInstruction : Obligations.MemoryFrameOfEveryInstruction := by
  intro i s t a h ha
  cases i with
  | ldBVx x => exact get_of_settle_store (bs := bcdDigits (s.getV x)) h ha
  | ldMemVx x => exact get_of_settle_store (bs := s.regsUpTo x) h (by rwa [s.length_regsUpTo x])
  | ret => rw [mem_of_settle_map h fun _ hp => State.mem_pop hp]
  | call nnn => rw [mem_of_settle_map h fun u hp => State.mem_push (t := u) hp]
  | drw | skpVx | sknpVx | ldVxMem => rw [mem_of_settle_map h fun _ _ => rfl]
  | _ => cases h; rfl

/-- Settles O41: the store completed, for a faulted state is not running, and the fetch reads two of its bytes. -/
theorem storeIsSeenByTheNextFetch : Obligations.StoreIsSeenByTheNextFetch := by
  intro x s t op _ h hrun hf hlo hhi
  rcases settle_store_cases (bs := s.regsUpTo x) h with rfl | ⟨f, rfl⟩
  · have hop := State.toNat_of_fetch_ok hf
    rwa [State.mem_advance, s.get_putBytes_regsUpTo x hlo (by omega),
      s.get_putBytes_regsUpTo x (by omega) hhi] at hop
  · cases hrun

end Sys2Proof.Machine
end

section
/-! SUPPORT. The launch contents of memory (R39). -/

namespace Sys2Proof.Machine

/-- Past the font an unlisted address reads as INIT_MEM (R39). -/
theorem Memory.unlisted_of_le {a : Nat} (h : 80 ≤ a) : Memory.unlisted a = Config.initMem a := by
  have hnone : Memory.launchByte a = none := List.getElem?_eq_none h
  rw [Memory.unlisted, hnone]
  rfl

/-- The memory of the initialized state with another FONT (R12, R39, R136). -/
theorem State.get_mem_resetWithFont (font : Vector Byte 80) (a : Nat) :
    (State.resetWithFont font).mem.get a = if h : a < 80 then font[a] else Config.initMem a := by
  have hput : (State.resetWithFont font).mem.get a = _ := Memory.get_putBytes [] font.toList 0 a
  rw [hput]
  by_cases h : a < 80
  · rw [dif_pos h, dif_pos (by simpa using h)]
    simp
  · rw [dif_neg h, dif_neg (by simpa using h)]
    exact Memory.unlisted_of_le (Nat.le_of_not_lt h)

end Sys2Proof.Machine

namespace Sys2Proof.Machine

/-- Settles O60: Load places the image over the initialized memory, which holds the font and INIT_MEM. -/
theorem launchMemoryForEveryFont : Obligations.LaunchMemoryForEveryFont := by
  intro font b hb
  rcases loadImage_cases b (State.resetWithFont font) with ⟨e, -⟩ | ⟨-, hlong⟩
  · have outside {a : Nat} (ha : a < 512 ∨ 512 + b.length ≤ a) :
        ((State.resetWithFont font).mem.putBytes 512 b).get a = (State.resetWithFont font).mem.get a := by
      rw [Memory.get_putBytes, dif_neg (by omega)]
    refine ⟨_, e, fun a h => ?_, fun k h => ?_, fun a h => ?_⟩
    · rw [outside (by omega), State.get_mem_resetWithFont, dif_pos h]
    · rw [Memory.get_putBytes, dif_pos (by omega)]
      simp
    · rw [outside (by omega), State.get_mem_resetWithFont, dif_neg (by omega)]
  · exact absurd hb (Nat.not_le_of_lt hlong)

end Sys2Proof.Machine
end

section
/-! SUPPORT. Decoding and encoding undo each other (R56 to R62). -/

namespace Sys2Proof

open Laws.EncodedKey (key_8 key_E key_F)

/-! ### The handler table -/

/-- The instruction a row of R60 reads from any opcode has that row's key. -/
theorem handlerKey_of_mem_handlers (op : Word) : ∀ e ∈ handlers, (e.2 op).handlerKey = e.1 :=
  have h : (handlers.map fun e => (e.2 op).handlerKey) = handlers.map (·.1) := rfl
  List.map_inj_left.mp h

theorem mem_handlers_of_lookup {k : Word} {r : Word → Instr} (h : handlers.lookup k = some r) : (k, r) ∈ handlers := by
  obtain ⟨l₁, l₂, e, -⟩ := List.lookup_eq_some_iff.mp h
  rw [e]
  exact List.mem_append_right _ List.mem_cons_self

theorem mem_handlerKeys_of_lookup {k : Word} {r : Word → Instr} (h : handlers.lookup k = some r) : k ∈ handlerKeys :=
  List.mem_map.mpr ⟨_, mem_handlers_of_lookup h, rfl⟩

theorem not_mem_handlerKeys_of_lookup {k : Word} (h : handlers.lookup k = none) : k ∉ handlerKeys := by
  intro hk
  obtain ⟨e, he, rfl⟩ := List.mem_map.mp hk
  simpa using List.lookup_eq_none_iff.mp h e he

/-- The two outcomes of decoding (R60, R61): a row reads the opcode, or the opcode is refused. -/
theorem decode_cases (op : Word) :
    (key op ∈ handlerKeys ∧ ∃ i, i.handlerKey = key op ∧ decode op = .ok i) ∨
      (key op ∉ handlerKeys ∧ decode op = .error (.unknownOpcode op)) := by
  cases h : handlers.lookup (key op) with
  | some r =>
    have hr : (r op).handlerKey = key op := handlerKey_of_mem_handlers op _ (mem_handlers_of_lookup h)
    exact .inl ⟨mem_handlerKeys_of_lookup h, r op, hr, decode_of_lookup rfl h⟩
  | none => exact .inr ⟨not_mem_handlerKeys_of_lookup h, decode_of_unbound rfl h⟩

theorem key_not_mem_iff (op : Word) : key op ∉ handlerKeys ↔ decode op = .error (.unknownOpcode op) := by
  rcases decode_cases op with ⟨hmem, i, -, hi⟩ | ⟨hnot, he⟩
  · exact ⟨fun hnot => absurd hmem hnot, fun he => nomatch hi.symm.trans he⟩
  · exact ⟨fun _ => he, fun _ => hnot⟩

theorem key_mem_iff (op : Word) : key op ∈ handlerKeys ↔ ∃ i, decode op = .ok i := by
  rcases decode_cases op with ⟨hmem, i, -, hi⟩ | ⟨hnot, he⟩
  · exact ⟨fun _ => ⟨i, hi⟩, fun _ => hmem⟩
  · exact ⟨fun hmem => absurd hmem hnot, fun ⟨_, hi⟩ => nomatch hi.symm.trans he⟩

theorem key_of_decode {op : Word} {i : Instr} (h : decode op = .ok i) : key op = i.handlerKey := by
  rcases decode_cases op with ⟨-, j, hj, e⟩ | ⟨-, e⟩
  · cases e.symm.trans h
    exact hj.symm
  · cases e.symm.trans h

/-! ### What the key keeps of an opcode (R59) -/

theorem fieldC_eq_of_class {op : Word} {c : Nibble} (h : op.toNat / 4096 = c.toNat) : fieldC op = c :=
  BitVec.eq_of_toNat_eq ((toNat_fieldC op).trans h)

theorem key_0 {op : Word} (h : fieldC op = 0x0#4) : key op = op := by
  unfold key; rw [h]; rfl

theorem fieldC_and_of_mask {op m : Word} (hm : fieldC m = 0xF#4) : fieldC (op &&& m) = fieldC op :=
  (BitVec.extractLsb'_and ..).trans ((congrArg (fieldC op &&& ·) hm).trans (nibble_and_ones _))

/-- Every mask of R59 keeps the class nibble. -/
theorem fieldC_key (op : Word) : fieldC (key op) = fieldC op := by
  unfold key
  split
  · rfl
  all_goals exact fieldC_and_of_mask rfl

variable {a b : Word}

theorem fieldC_eq_of_key_eq (h : key a = key b) : fieldC a = fieldC b := by
  rw [← fieldC_key a, h, fieldC_key]

/-- Two opcodes of class 8 with one key have one low nibble. -/
theorem fieldN_eq_of_key_eq (h : key a = key b) (hb : fieldC b = 0x8#4) : fieldN a = fieldN b := by
  have keep {op : Word} (hc : fieldC op = 0x8#4) : fieldN (key op) = fieldN op := by
    rw [key_8 hc]
    exact (BitVec.extractLsb'_and ..).trans (nibble_and_ones _)
  rw [← keep hb, ← h, keep ((fieldC_eq_of_key_eq h).trans hb)]

/-- Two opcodes of class E or F with one key have one low byte. -/
theorem fieldNN_eq_of_key_eq (h : key a = key b) (hb : fieldC b = 0xE#4 ∨ fieldC b = 0xF#4) :
    fieldNN a = fieldNN b := by
  have keep {op : Word} (hc : fieldC op = 0xE#4 ∨ fieldC op = 0xF#4) : fieldNN (key op) = fieldNN op := by
    rw [hc.elim key_E key_F]
    exact (BitVec.extractLsb'_and ..).trans (byte_and_ones _)
  rw [← keep hb, ← h, keep (by rwa [fieldC_eq_of_key_eq h])]

/-! ### An opcode assembled from its own fields -/

/-- The bits of an opcode that a handler may read (R62): all but the low nibble of classes 5 and 9. -/
def usedBits (op : Word) : Word := if op.toNat / 4096 = 5 ∨ op.toNat / 4096 = 9 then op &&& 0xFFF0#16 else op

variable {op : Word} {c : Nibble}

theorem usedBits_of_class (hc : fieldC op = c) (h : c.toNat ≠ 5 ∧ c.toNat ≠ 9) : usedBits op = op := by
  obtain ⟨h5, h9⟩ := h
  rw [usedBits, ← toNat_fieldC, hc, if_neg (not_or.mpr ⟨h5, h9⟩)]

theorem usedBits_of_class_low (hc : fieldC op = c) (h : c.toNat = 5 ∨ c.toNat = 9) :
    usedBits op = op &&& 0xFFF0#16 := by
  rw [usedBits, ← toNat_fieldC, hc, if_pos h]

theorem assemble_nnn (hc : fieldC op = c) : c ++ fieldNNN op = op := by
  apply BitVec.eq_of_toNat_eq
  rw [← hc, toNat_assemble_nnn, toNat_fieldC, toNat_fieldNNN]
  omega

theorem assemble_xnn {nn : Byte} (hc : fieldC op = c) (hnn : fieldNN op = nn) : c ++ fieldX op ++ nn = op := by
  apply BitVec.eq_of_toNat_eq
  rw [← hc, ← hnn, toNat_assemble_xnn, toNat_fieldC, toNat_fieldX, toNat_fieldNN]
  omega

theorem assemble_xyn {n : Nibble} (hc : fieldC op = c) (hn : fieldN op = n) :
    c ++ fieldX op ++ fieldY op ++ n = op := by
  apply BitVec.eq_of_toNat_eq
  rw [← hc, ← hn, toNat_assemble_xyn, toNat_fieldC, toNat_fieldX, toNat_fieldY, toNat_fieldN]
  omega

theorem maskFFF0_xyn (c x y n : Nibble) : (c ++ x ++ y ++ n : Word) &&& 0xFFF0#16 = c ++ x ++ y ++ 0x0#4 := by
  have h : (c ++ x ++ y ++ n) &&& (0xFFF#12 ++ 0x0#4) = (c ++ x ++ y &&& 0xFFF#12) ++ (n &&& 0x0#4) := BitVec.and_append
  have ones : (c ++ x ++ y) &&& 0xFFF#12 = c ++ x ++ y := BitVec.and_allOnes
  rw [ones, BitVec.and_zero] at h
  exact h

theorem assemble_xy0 (hc : fieldC op = c) : c ++ fieldX op ++ fieldY op ++ 0x0#4 = op &&& 0xFFF0#16 := by
  have h := maskFFF0_xyn c (fieldX op) (fieldY op) (fieldN op)
  rw [assemble_xyn hc rfl] at h
  exact h.symm

theorem highByte_append_lowByte (op : Word) : highByte op ++ lowByte op = op :=
  (BitVec.extractLsb'_append_extractLsb'_eq_extractLsb' rfl).trans BitVec.extractLsb'_eq_self

/-! ### Decoding and encoding -/

/-- The row of an instruction's key reads each field where the encoder put it (R57, R60). -/
theorem decode_encode (i : Instr) : decode (encode i) = .ok i := by
  have hk : key (encode i) = i.handlerKey := Laws.EncodedKey.all i
  cases i with
  | cls | ret => exact decode_of_lookup hk rfl
  | jp | call | ldI | jpV0 => rw [decode_of_lookup hk rfl, encode, fieldNNN_nnn]
  | seVxNn | sneVxNn | ldVxNn | addVxNn | rndVxNn => rw [decode_of_lookup hk rfl, encode, fieldX_xnn, fieldNN_xnn]
  | drw => rw [decode_of_lookup hk rfl, encode, fieldX_xyn, fieldY_xyn, fieldN_xyn]
  | skpVx | sknpVx | ldVxDt | ldVxK | ldDtVx | ldStVx | addIVx | ldFVx | ldBVx | ldMemVx | ldVxMem =>
    rw [decode_of_lookup hk rfl, encode, fieldX_xnn]
  | _ => rw [decode_of_lookup hk rfl, encode, fieldX_xyn, fieldY_xyn]

/-- An opcode and the encoding of what it decodes to have one key, so they agree in what the key keeps; the fields the row
reads are the rest of the opcode (R62). -/
theorem encode_of_decode {i : Instr} (h : decode op = .ok i) : encode i = usedBits op := by
  have hi : key op = i.handlerKey := key_of_decode h
  have hk : key op = key (encode i) := hi.trans (Laws.EncodedKey.all i).symm
  have hc : fieldC op = fieldC (encode i) := fieldC_eq_of_key_eq hk
  cases i with
  | cls | ret =>
    rw [usedBits_of_class hc (by decide)]
    exact hi.symm.trans (key_0 hc)
  | jp | call | ldI | jpV0 =>
    cases (decode_of_lookup hi rfl).symm.trans h
    replace hc := hc.trans (fieldC_nnn ..)
    rw [usedBits_of_class hc (by decide)]
    exact assemble_nnn hc
  | seVxNn | sneVxNn | ldVxNn | addVxNn | rndVxNn =>
    cases (decode_of_lookup hi rfl).symm.trans h
    replace hc := hc.trans (fieldC_xnn ..)
    rw [usedBits_of_class hc (by decide)]
    exact assemble_xnn hc rfl
  | seVxVy | sneVxVy =>
    cases (decode_of_lookup hi rfl).symm.trans h
    replace hc := hc.trans (fieldC_xyn ..)
    rw [usedBits_of_class_low hc (by decide)]
    exact assemble_xy0 hc
  | drw =>
    cases (decode_of_lookup hi rfl).symm.trans h
    replace hc := hc.trans (fieldC_xyn ..)
    rw [usedBits_of_class hc (by decide)]
    exact assemble_xyn hc rfl
  | skpVx | sknpVx | ldVxDt | ldVxK | ldDtVx | ldStVx | addIVx | ldFVx | ldBVx | ldMemVx | ldVxMem =>
    cases (decode_of_lookup hi rfl).symm.trans h
    have hnn : fieldNN op = _ := fieldNN_eq_of_key_eq hk (by rw [encode, fieldC_xnn]; decide)
    replace hc := hc.trans (fieldC_xnn ..)
    rw [usedBits_of_class hc (by decide)]
    exact assemble_xnn hc (hnn.trans (fieldNN_xnn ..))
  | _ =>
    cases (decode_of_lookup hi rfl).symm.trans h
    have hn : fieldN op = _ := fieldN_eq_of_key_eq hk (fieldC_xyn ..)
    replace hc := hc.trans (fieldC_xyn ..)
    rw [usedBits_of_class hc (by decide)]
    exact assemble_xyn hc (hn.trans (fieldN_xyn ..))

/-! ### Decoding bytes (R43, R56) -/

theorem decodeBytes_eq_ok_iff {hi lo : Byte} {rest : List Byte} {i : Instr} :
    decodeBytes (hi :: lo :: rest) = .ok (i, rest) ↔ decode (hi ++ lo) = .ok i := by
  cases hd : decode (hi ++ lo) <;> simp [decodeBytes, hd]

theorem decodeBytes_encodeBytes (i : Instr) (rest : List Byte) :
    decodeBytes (encodeBytes i ++ rest) = .ok (i, rest) :=
  decodeBytes_eq_ok_iff.mpr (by rw [highByte_append_lowByte, decode_encode])

end Sys2Proof

namespace Sys2Proof

open Laws.EncodedKey (key_top key_8 key_E key_F)

/-- Settles O1: the instruction's row reads its fields back, and its two bytes together are its opcode. -/
theorem decodeOfEncodeIsTheInstruction : Obligations.DecodeOfEncodeIsTheInstruction :=
  fun i rest => ⟨decode_encode i, decodeBytes_encodeBytes i rest⟩

/-- Settles O2: an opcode is its class and the fields of its row, but for the low nibble of classes 5 and 9. -/
theorem encodeOfDecodeKeepsEveryUsedBit : Obligations.EncodeOfDecodeKeepsEveryUsedBit :=
  fun _ _ h => encode_of_decode h

/-- Settles O3: the class nibble selects the mask. -/
theorem dispatchKeyMasksByClass : Obligations.DispatchKeyMasksByClass := by
  refine ⟨fun op => ⟨fun h => ?_, fun h => ?_, fun h => ?_, fun h => ?_⟩, rfl, rfl⟩
  · exact key_0 (fieldC_eq_of_class h)
  · exact key_8 (fieldC_eq_of_class h)
  · exact h.elim (fun hE => key_E (fieldC_eq_of_class hE)) fun hF => key_F (fieldC_eq_of_class hF)
  · rw [← toNat_fieldC] at h
    obtain ⟨h0, h8, hE, hF⟩ := h
    exact key_top rfl ⟨BitVec.toNat_ne.mpr h0, BitVec.toNat_ne.mpr h8, BitVec.toNat_ne.mpr hE, BitVec.toNat_ne.mpr hF⟩

/-- Settles O4: the row of each word's key reads the fields; the keys of the two refused words have no row. -/
theorem wordsOfTheTableDecode : Obligations.WordsOfTheTableDecode :=
  ⟨rfl, rfl, rfl, rfl, rfl, rfl, rfl, rfl, rfl, rfl, rfl, rfl, rfl, rfl, rfl, rfl⟩

end Sys2Proof
end

section
/-! SUPPORT. The Step of the instruction clock after a fetch (R64), and the two statements made of it and of decoding. -/

namespace Sys2Proof.Machine

variable {s : State} {op : Word}

theorem cpuStep_of_decode_ok {i : Instr} (hf : s.fetch = .ok op) (hd : decode op = .ok i) : cpuStep s = exec i s := by
  simp only [cpuStep, hf, hd]

/-- A Step whose opcode is refused takes UnknownOpcode of the whole opcode (R61, R116). -/
theorem cpuStep_of_decode_error {e : DecodeError} (hf : s.fetch = .ok op) (hd : decode op = .error e) :
    cpuStep s = .next { s with status := .faulted (.unknownOpcode op) } := by
  simp only [cpuStep, hf, hd, raise]

/-- In a running state a turn of the instruction clock is its Step. -/
theorem step_of_cpu_turn (hrun : s.status = .running) (hturn : s.takeTurn.1 = .cpu) :
    step s = cpuStep { s with sched := s.takeTurn.2.sched } := by
  have henabled : enabled .cpu s.status = true := by rw [hrun]; rfl
  calc step s = turnStep s := by simp only [step, machineStep, hrun]
    _ = transition .cpu s.takeTurn.2 := by rw [turnStep, hturn, if_pos henabled]
    _ = cpuStep { s with sched := s.takeTurn.2.sched } := congrArg cpuStep s.takeTurn_eq

end Sys2Proof.Machine

namespace Sys2Proof.Machine

/-- Settles O5: an opcode is refused exactly when its key has no row, and the Step takes that refusal as its fault. -/
theorem unboundKeyRaisesUnknownOpcode : Obligations.UnboundKeyRaisesUnknownOpcode :=
  ⟨rfl, key_not_mem_iff, key_mem_iff, fun _ op hf hk => cpuStep_of_decode_error hf ((key_not_mem_iff op).mp hk)⟩

/-- Settles O7: the turn taken is the instruction clock's Step, from a state that differs in the schedule alone. -/
theorem stepRunsTheDecodedInstruction : Obligations.StepRunsTheDecodedInstruction := by
  intro s i hrun hturn he hr hd
  have hi := decodeBytes_eq_ok_iff.mp hd
  rw [step_of_cpu_turn hrun hturn]
  exact cpuStep_of_decode_ok (s := { s with sched := s.takeTurn.2.sched }) (State.fetch_ok he hr) hi

end Sys2Proof.Machine
end

section
/-! SUPPORT. The jumps, the stack transfers and the skips (R71 to R78) in closed form, and the six statements made of
them. -/

namespace Sys2Proof

open Laws.EncodedKey (key_top)

/-- Three operand nibbles leave no trace in a key that is the top nibble alone (R59). -/
theorem key_top_xyn {c : Nibble} (hc : c ≠ 0x0#4 ∧ c ≠ 0x8#4 ∧ c ≠ 0xE#4 ∧ c ≠ 0xF#4) (x y n : Nibble) :
    key (c ++ x ++ y ++ n) = c ++ 0#4 ++ 0#4 ++ 0#4 :=
  (key_top (fieldC_xyn ..) hc).trans (maskF000_xyn ..)

/-- The low nibble of 5XYN is ignored (R62, R76). -/
theorem decode_5xyn (x y n : Nibble) : decode (0x5#4 ++ x ++ y ++ n) = .ok (.seVxVy x y) := by
  rw [decode_of_lookup (key_top_xyn (by decide) x y n) rfl, fieldX_xyn, fieldY_xyn]

/-- The low nibble of 9XYN is ignored (R62, R77). -/
theorem decode_9xyn (x y n : Nibble) : decode (0x9#4 ++ x ++ y ++ n) = .ok (.sneVxVy x y) := by
  rw [decode_of_lookup (key_top_xyn (by decide) x y n) rfl, fieldX_xyn, fieldY_xyn]

end Sys2Proof

namespace Sys2Proof.Machine

variable {s : State}

/-! ### Targets of jumps -/

theorem addrOf_eq_ofNat (nnn : Addr) : addrOf nnn = BitVec.ofNat 16 nnn.toNat := (BitVec.ofNat_toNat 16 nnn).symm

/-- The sum of a 12-bit and an 8-bit number has a place in 16 bits (R78). -/
theorem State.toNat_indexedTarget (s : State) (nnn : Addr) :
    (s.indexedTarget nnn).toNat = nnn.toNat + (s.getV 0#4).toNat := by
  have hn := nnn.isLt
  have hv := (s.getV 0#4).isLt
  simp only [State.indexedTarget, addrOf, BitVec.ofNat_eq_ofNat, BitVec.toNat_add, BitVec.toNat_setWidth]
  omega

/-! ### The stack transfers -/

theorem exec_ret_of_pos (h : 0 < s.sp.val) :
    exec .ret s = .next { s with sp := ⟨s.sp.val - 1, by omega⟩, pc := s.stack[s.sp.val - 1] + 2#16 } := by
  rw [exec, execRet, State.pop_ok h]
  rfl

theorem exec_ret_of_empty (h : ¬ 0 < s.sp.val) :
    exec .ret s = .next { s with status := .faulted (.stackUnderflow s.pc) } := by
  rw [exec, execRet, State.pop_empty h]
  rfl

theorem exec_call_of_lt (nnn : Addr) (h : s.sp.val < 16) :
    exec (.call nnn) s = .next
      { s with stack := s.stack.set s.sp.val s.pc h, sp := ⟨s.sp.val + 1, by omega⟩, pc := addrOf nnn } := by
  rw [exec, execCall, State.push_ok s.pc h]
  rfl

theorem exec_call_of_full (nnn : Addr) (h : ¬ s.sp.val < 16) :
    exec (.call nnn) s = .next { s with status := .faulted (.stackOverflow s.pc) } := by
  rw [exec, execCall, State.push_full s.pc h]
  rfl

/-! ### The skips -/

section
variable {i : Instr} {a b : Byte}

/-- An instruction that skips on equality (R74, R76). -/
theorem exec_of_skip_eq (hi : exec i s = .next (s.skipIf (a == b))) :
    (a = b → exec i s = .next { s with pc := s.pc + 4#16 }) ∧
      (a ≠ b → exec i s = .next { s with pc := s.pc + 2#16 }) := by
  refine ⟨fun h => ?_, fun h => ?_⟩
  · rw [hi, beq_iff_eq.mpr h]; rfl
  · rw [hi, beq_eq_false_iff_ne.mpr h]; rfl

/-- An instruction that skips on inequality is the complement (R75, R77). -/
theorem exec_of_skip_ne (hi : exec i s = .next (s.skipIf (a != b))) :
    (a ≠ b → exec i s = .next { s with pc := s.pc + 4#16 }) ∧
      (a = b → exec i s = .next { s with pc := s.pc + 2#16 }) := by
  refine ⟨fun h => ?_, fun h => ?_⟩
  · rw [hi, bne_iff_ne.mpr h]; rfl
  · rw [hi, bne_eq_false_iff_eq.mpr h]; rfl

end

end Sys2Proof.Machine

namespace Sys2Proof.Machine

/-- Settles O17: the two outcomes of the pop. -/
theorem returnResumesAfterTheCall : Obligations.ReturnResumesAfterTheCall := by
  refine ⟨decode_encode .ret, fun s => ⟨fun k hk hsp => ?_, fun hsp => exec_ret_of_empty (by omega)⟩⟩
  obtain rfl : k = s.sp.val - 1 := by omega
  exact exec_ret_of_pos (by omega)

/-- Settles O18: NNN as an address is its number in 16 bits. -/
theorem jumpGoesToNnn : Obligations.JumpGoesToNnn := by
  intro nnn
  refine ⟨decode_encode (.jp nnn), fun s => ?_⟩
  rw [← addrOf_eq_ofNat]
  rfl

/-- Settles O19: the two outcomes of the push. -/
theorem callPushesItsOwnAddress : Obligations.CallPushesItsOwnAddress := by
  intro nnn
  refine ⟨decode_encode (.call nnn), fun s => ⟨fun k hk hsp => ?_, fun hsp => exec_call_of_full nnn (by omega)⟩⟩
  subst hsp
  rw [← addrOf_eq_ofNat]
  exact exec_call_of_lt nnn hk

/-- Settles O20: a skip on equality and one on inequality, of V[X] and NN. -/
theorem skipsOnAnImmediate : Obligations.SkipsOnAnImmediate := by
  intro x nn s
  obtain ⟨seTaken, seNot⟩ := exec_of_skip_eq (i := .seVxNn x nn) (s := s) rfl
  obtain ⟨sneTaken, sneNot⟩ := exec_of_skip_ne (i := .sneVxNn x nn) (s := s) rfl
  exact ⟨decode_encode (.seVxNn x nn), decode_encode (.sneVxNn x nn), seTaken, seNot, sneTaken, sneNot⟩

/-- Settles O21: a skip on equality and one on inequality, of V[X] and V[Y]; the decoder ignores N. -/
theorem skipsOnTwoRegisters : Obligations.SkipsOnTwoRegisters := by
  intro x y n s
  obtain ⟨seTaken, seNot⟩ := exec_of_skip_eq (i := .seVxVy x y) (s := s) rfl
  obtain ⟨sneTaken, sneNot⟩ := exec_of_skip_ne (i := .sneVxVy x y) (s := s) rfl
  exact ⟨decode_5xyn x y n, decode_9xyn x y n, seTaken, seNot, sneTaken, sneNot⟩

/-- Settles O22: the target has a place in 16 bits. -/
theorem indexedJumpDoesNotWrap : Obligations.IndexedJumpDoesNotWrap :=
  fun nnn => ⟨decode_encode (.jpV0 nnn), fun s => ⟨s.indexedTarget nnn, s.toNat_indexedTarget nnn, rfl⟩⟩

end Sys2Proof.Machine
end

section
/-! SUPPORT. The register loads and the ALU (R79 to R92): what FlagOp writes under each order, where the order shows, the
five result and flag functions as numbers, and the eleven statements made of them. -/

namespace Sys2Proof.Machine

/-! ### FlagOp -/

section
variable (x y z : Nibble) (r f : Byte → Byte → Byte) (v : Regs)

/-- The flag is written last, so it is what VF holds, X = F included (R80). -/
theorem Regs.read_flagWrites_resultThenFlag : (flagWrites .resultThenFlag x y r f v).read z =
    if z = vf then f (v.read x) (v.read y) else if z = x then r (v.read x) (v.read y) else v.read z := by
  simp only [flagWrites, Regs.read_write, eq_comm (a := z)]

/-- The result is written last, of the operands re-read after VF was written (R80). -/
theorem Regs.read_flagWrites_flagThenResult : (flagWrites .flagThenResult x y r f v).read z =
    if z = x then
      r (if x = vf then f (v.read x) (v.read y) else v.read x) (if y = vf then f (v.read x) (v.read y) else v.read y)
    else if z = vf then f (v.read x) (v.read y) else v.read z := by
  simp only [flagWrites, Regs.read_write, eq_comm (a := z), eq_comm (b := vf)]

end

section
variable {x y : Nibble} (r f : Byte → Byte → Byte)

/-- With neither operand F, VF is neither read again nor written twice, and the two writes commute (R80). -/
theorem flagWrites_order_irrelevant (v : Regs) (hx : x ≠ vf) (hy : y ≠ vf) :
    flagWrites .resultThenFlag x y r f v = flagWrites .flagThenResult x y r f v := by
  simp only [flagWrites, Regs.read_write_of_ne _ _ hx.symm, Regs.read_write_of_ne _ _ hy.symm,
    Regs.write_comm _ _ _ hx]

theorem flagOp_order_irrelevant (s : State) (hx : x ≠ vf) (hy : y ≠ vf) :
    flagOp .resultThenFlag x y r f s = flagOp .flagThenResult x y r f s := by
  simp only [flagOp, flagWrites_order_irrelevant r f s.v hx hy]

/-- The order a flag writer is run with gives the state VF_WRITE_ORDER gives (R14, R80, log entry 5). -/
theorem flagOp_flagOrder (x y : Nibble) (s : State) :
    flagOp (flagOrder x y) x y r f s = flagOp Config.vfWriteOrder x y r f s := by
  by_cases h : x = vf ∨ y = vf
  · rw [flagOrder, if_pos h]
  · rw [flagOrder, if_neg h]
    obtain ⟨hx, hy⟩ := not_or.mp h
    cases Config.vfWriteOrder with
    | resultThenFlag => rfl
    | flagThenResult => exact flagOp_order_irrelevant r f s hx hy

end

/-! ### The flag writers -/

section
variable (x y : Nibble) (s : State)

theorem exec_addVxVy : exec (.addVxVy x y) s = .next (flagOp Config.vfWriteOrder x y addResult addFlag s) := by
  rw [exec, execAddVxVy, flagOp_flagOrder]

theorem exec_subVxVy : exec (.subVxVy x y) s = .next (flagOp Config.vfWriteOrder x y subResult subFlag s) := by
  rw [exec, execSubVxVy, flagOp_flagOrder]

theorem exec_shrVx : exec (.shrVx x y) s = .next (flagOp Config.vfWriteOrder x y shrResult shrFlag s) := by
  rw [exec, execShrVx, flagOp_flagOrder]

theorem exec_subnVxVy : exec (.subnVxVy x y) s = .next (flagOp Config.vfWriteOrder x y subnResult subnFlag s) := by
  rw [exec, execSubnVxVy, flagOp_flagOrder]

theorem exec_shlVx : exec (.shlVx x y) s = .next (flagOp Config.vfWriteOrder x y shlResult shlFlag s) := by
  rw [exec, execShlVx, flagOp_flagOrder]

end

/-! ### Results and flags as numbers -/

theorem toNat_flagBit (c : Bool) : (flagBit c).toNat = if c then 1 else 0 := by
  cases c <;> rfl

section
variable (a b : Byte)

theorem toNat_addResult : (addResult a b).toNat = (a.toNat + b.toNat) % 256 := BitVec.toNat_ofNat _ _

theorem toNat_addFlag : (addFlag a b).toNat = if 255 < a.toNat + b.toNat then 1 else 0 := by
  simp only [addFlag, toNat_flagBit, decide_eq_true_eq]

theorem toNat_subResult : (subResult a b).toNat = (256 + a.toNat - b.toNat) % 256 := by
  have hb := b.isLt
  rw [subResult, BitVec.toNat_ofInt]
  omega

theorem toNat_subFlag : (subFlag a b).toNat = if a.toNat < b.toNat then 0 else 1 := by
  simp only [subFlag, toNat_flagBit, decide_eq_true_eq, ← Nat.not_lt, ite_not]

/-- 8XY7 is 8XY5 with the operands exchanged (R90). -/
theorem toNat_subnResult : (subnResult a b).toNat = (256 + b.toNat - a.toNat) % 256 := toNat_subResult b a

theorem toNat_subnFlag : (subnFlag a b).toNat = if b.toNat < a.toNat then 0 else 1 := toNat_subFlag b a

theorem toNat_shrResult : (shrResult a b).toNat = a.toNat / 2 := by
  rw [shrResult, BitVec.toNat_ushiftRight, Nat.shiftRight_eq_div_pow, Nat.pow_one]

theorem toNat_shrFlag : (shrFlag a b).toNat = a.toNat % 2 := by
  rw [shrFlag, BitVec.toNat_and]
  exact Nat.and_one_is_mod _

theorem toNat_shlResult : (shlResult a b).toNat = 2 * a.toNat % 256 := by
  rw [shlResult, BitVec.toNat_shiftLeft, Nat.shiftLeft_eq, Nat.mul_comm]

/-- The mask 0x80 keeps bit 7, which is set from 128 on (R91). -/
theorem toNat_shlFlag : (shlFlag a b).toNat = if 128 ≤ a.toNat then 0x80 else 0x00 := by
  have hmask : shlFlag a b = if a.getLsbD 7 then 0x80#8 else 0#8 := BitVec.and_twoPow a 7
  have hbit : a.getLsbD 7 = decide (128 ≤ a.toNat) := BitVec.msb_eq_decide a
  rw [hmask, hbit]
  by_cases h : 128 ≤ a.toNat
  · rw [if_pos h, decide_eq_true h]; rfl
  · rw [if_neg h, decide_eq_false h]; rfl

end

end Sys2Proof.Machine

namespace Sys2Proof.Machine

/-- Settles O27: the registers under each order, the frame, and the order's irrelevance away from F. -/
theorem flagOpUnderEachWriteOrder : Obligations.FlagOpUnderEachWriteOrder := fun x y r f s =>
  ⟨fun z => Regs.read_flagWrites_resultThenFlag x y z r f s.v,
    fun z => Regs.read_flagWrites_flagThenResult x y z r f s.v,
    fun _ => rfl,
    flagOp_order_irrelevant r f s⟩

/-- Settles O28: the sum and the carry as numbers, and the order made VF_WRITE_ORDER. -/
theorem addSetsCarry : Obligations.AddSetsCarry := fun x y =>
  ⟨decode_encode (.addVxVy x y), fun a b => ⟨toNat_addResult a b, toNat_addFlag a b⟩, exec_addVxVy x y⟩

/-- Settles O29: the difference and the not-borrow as numbers, and the order made VF_WRITE_ORDER. -/
theorem subtractSetsNotBorrow : Obligations.SubtractSetsNotBorrow := fun x y =>
  ⟨decode_encode (.subVxVy x y), fun a b => ⟨toNat_subResult a b, toNat_subFlag a b⟩, exec_subVxVy x y⟩

/-- Settles O30: half and the low bit as numbers, and the order made VF_WRITE_ORDER. -/
theorem shiftRightSetsTheBitShiftedOut : Obligations.ShiftRightSetsTheBitShiftedOut := fun x y =>
  ⟨decode_encode (.shrVx x y), fun a b => ⟨toNat_shrResult a b, toNat_shrFlag a b⟩, exec_shrVx x y⟩

/-- Settles O31: the numbers of 8XY5 with the operands exchanged, and the order made VF_WRITE_ORDER. -/
theorem reverseSubtractSetsNotBorrow : Obligations.ReverseSubtractSetsNotBorrow := fun x y =>
  ⟨decode_encode (.subnVxVy x y), fun a b => ⟨toNat_subnResult a b, toNat_subnFlag a b⟩, exec_subnVxVy x y⟩

/-- Settles O32: twice the operand and its masked bit as numbers, and the order made VF_WRITE_ORDER. -/
theorem shiftLeftSetsTheRawBit : Obligations.ShiftLeftSetsTheRawBit := fun x y =>
  ⟨decode_encode (.shlVx x y), fun a b => ⟨toNat_shlResult a b, toNat_shlFlag a b⟩, exec_shlVx x y⟩

/-- Settles O23: the instruction is one register write. -/
theorem loadImmediateWritesNn : Obligations.LoadImmediateWritesNn := fun x nn =>
  ⟨decode_encode (.ldVxNn x nn), fun _ => rfl⟩

/-- Settles O24: the byte written is 8XY4's result, and no flag goes with it. -/
theorem addImmediateWrapsWithoutFlag : Obligations.AddImmediateWrapsWithoutFlag := fun x nn =>
  ⟨decode_encode (.addVxNn x nn), fun s => ⟨addResult (s.getV x) nn, toNat_addResult (s.getV x) nn, rfl⟩⟩

/-- Settles O25: the instruction is one register write. -/
theorem copyWritesTheSource : Obligations.CopyWritesTheSource := fun x y =>
  ⟨decode_encode (.ldVxVy x y), fun _ => rfl⟩

/-- Settles O26: the bytes written are the library's bitwise operations, known bit by bit. -/
theorem logicOperationsWriteNoFlag : Obligations.LogicOperationsWriteNoFlag := by
  intro x y
  refine ⟨decode_encode (.orVxVy x y), decode_encode (.andVxVy x y), decode_encode (.xorVxVy x y), fun s => ?_⟩
  exact ⟨s.getV x ||| s.getV y, s.getV x &&& s.getV y, s.getV x ^^^ s.getV y,
    fun _ => BitVec.getLsbD_or, fun _ => BitVec.getLsbD_and, fun _ => BitVec.getLsbD_xor, rfl, rfl, rfl⟩

/-- Settles O33: one draw, then one register write. -/
theorem randomByteIsAMaskedDraw : Obligations.RandomByteIsAMaskedDraw := fun x nn =>
  ⟨decode_encode (.rndVxNn x nn), fun _ => rfl⟩

end Sys2Proof.Machine
end

section
/-! SUPPORT. The index register and the memory transfers (R94 to R99): a block stored or loaded in range, the fault of one
that is not, and the six statements made of them. -/

namespace Sys2Proof.Machine

/-! ### The index register -/

/-- Five times a byte has a place in 16 bits (R96). -/
theorem toNat_glyphAddress (b : Byte) : (BitVec.ofNat 16 (5 * b.toNat)).toNat = 5 * b.toNat := by
  have hb := b.isLt
  rw [BitVec.toNat_ofNat]
  omega

/-- A sum taken modulo 4096 has a place in 16 bits (R95). -/
theorem toNat_wrappedIndex (n : Nat) : (BitVec.ofNat 16 (n % 4096)).toNat = n % 4096 := by
  rw [BitVec.toNat_ofNat]
  omega

/-! ### A stored block, byte by byte -/

theorem Memory.get_putBytes_add (m : Memory) (a : Nat) {bs : List Byte} {k : Nat} (h : k < bs.length) :
    (m.putBytes a bs).get (a + k) = bs[k] := by
  rw [Memory.get_putBytes, dif_pos (by omega)]
  simp only [Nat.add_sub_cancel_left]

theorem Memory.get_putBytes_outside (m : Memory) {a b : Nat} {bs : List Byte} (h : b < a ∨ a + bs.length ≤ b) :
    (m.putBytes a bs).get b = m.get b := by
  rw [Memory.get_putBytes, dif_neg (by omega)]

/-- The bytes FX33 stores, as numbers: a digit is at most the byte it is taken from, so a byte holds it (R97). -/
theorem Memory.toNat_get_putBytes_bcdDigits (m : Memory) (a : Nat) (b : Byte) :
    ((m.putBytes a (bcdDigits b)).get a).toNat = b.toNat / 100 ∧
      ((m.putBytes a (bcdDigits b)).get (a + 1)).toNat = b.toNat / 10 % 10 ∧
      ((m.putBytes a (bcdDigits b)).get (a + 2)).toNat = b.toNat % 10 := by
  have hb := b.isLt
  have digit {k : Nat} (hk : k < 3) := congrArg BitVec.toNat (m.get_putBytes_add a (bs := bcdDigits b) hk)
  refine ⟨(digit (k := 0) (by decide)).trans ?_, (digit (k := 1) (by decide)).trans ?_,
    (digit (k := 2) (by decide)).trans ?_⟩
  all_goals exact Nat.mod_eq_of_lt (by omega)

/-! ### The registers after a loaded block -/

/-- FX65 loads V0 to VX, X = F included, and no other register (R99). -/
theorem Regs.read_writeBlock_bytes (v : Regs) (m : Memory) (a : Nat) (x z : Nibble) :
    (v.writeBlock 0 (m.bytes a (x.toNat + 1))).read z =
      if z.toNat ≤ x.toNat then m.get (a + z.toNat) else v.read z := by
  have hx := x.isLt
  have hlen := Memory.length_bytes m a (x.toNat + 1)
  rw [Regs.read_writeBlock v 0 _ (by omega)]
  by_cases hz : z.toNat ≤ x.toNat
  · rw [dif_pos (by omega), if_pos hz]
    exact Memory.getElem_bytes ..
  · rw [dif_neg (by omega), if_neg hz]

/-! ### The transfers in closed form -/

section
variable {s : State}

/-- A block in range is stored whole (R42, R46). -/
theorem settle_store_of_le {bs : List Byte} (h : s.index.toNat + bs.length ≤ 4096) :
    settle s ((s.writeRange s.transferAddr bs).map (·.advance 2#16)) =
      .next { s with mem := s.mem.putBytes s.index.toNat bs, pc := s.pc + 2#16 } := by
  rw [State.writeRange, State.transferAddr, checkRange_ok (.inr h)]
  rfl

/-- Of a block that leaves memory no byte is stored (R42). -/
theorem settle_store_of_lt {bs : List Byte} (hbs : 0 < bs.length) (h : 4096 < s.index.toNat + bs.length) :
    settle s ((s.writeRange s.transferAddr bs).map (·.advance 2#16)) =
      .next { s with status := .faulted (.memOutOfRange (max s.index.toNat 0x1000)) } := by
  rw [State.writeRange, State.transferAddr, checkRange_error hbs h]
  rfl

theorem exec_ldVxMem_of_le {x : Nibble} (h : s.index.toNat + x.toNat ≤ 0xFFF) :
    exec (.ldVxMem x) s = .next
      { s with v := s.v.writeBlock 0 (s.mem.bytes s.index.toNat (x.toNat + 1)), pc := s.pc + 2#16 } := by
  rw [exec, execLdVxMem, State.readRange, State.transferAddr, checkRange_ok (by omega)]
  rfl

theorem exec_ldVxMem_of_lt {x : Nibble} (h : 0xFFF < s.index.toNat + x.toNat) :
    exec (.ldVxMem x) s = .next { s with status := .faulted (.memOutOfRange (max s.index.toNat 0x1000)) } := by
  rw [exec, execLdVxMem, State.readRange, State.transferAddr, checkRange_error (by omega) (by omega)]
  rfl

/-- The address a failed transfer records is the first one out of range (R42): 0x1000 for every I in memory. -/
theorem exists_memOutOfRange {r : Result}
    (h : r = .next { s with status := .faulted (.memOutOfRange (max s.index.toNat 0x1000)) }) :
    ∃ a : Nat, a = max s.index.toNat 0x1000 ∧ (s.index.toNat ≤ 0xFFF → a = 0x1000) ∧
      r = .next { s with status := .faulted (.memOutOfRange a) } :=
  ⟨_, rfl, fun hI => Nat.max_eq_right (by omega), h⟩

end

end Sys2Proof.Machine

namespace Sys2Proof.Machine

/-- Settles O37: three bytes are stored from I up, which are the digits, or the block leaves memory. -/
theorem bcdStoresThreeDigits : Obligations.BcdStoresThreeDigits := by
  intro x
  refine ⟨decode_encode (.ldBVx x), fun s => ⟨fun h => ?_, fun h => ?_⟩⟩
  · obtain ⟨hundreds, tens, ones⟩ := s.mem.toNat_get_putBytes_bcdDigits s.index.toNat (s.getV x)
    exact ⟨_, settle_store_of_le (bs := bcdDigits (s.getV x)) (Nat.add_le_add_right h 3), hundreds, tens, ones,
      fun a ha => Memory.get_putBytes_outside _ ha, rfl⟩
  · exact exists_memOutOfRange
      (settle_store_of_lt (bs := bcdDigits (s.getV x)) (Nat.succ_pos 2) (Nat.add_lt_add_right h 3))

/-- Settles O38: X + 1 registers are stored from I up, or the block leaves memory. -/
theorem storeRegistersCopiesToMemory : Obligations.StoreRegistersCopiesToMemory := by
  intro x
  refine ⟨decode_encode (.ldMemVx x), fun s => ?_⟩
  have hlen := s.length_regsUpTo x
  refine ⟨fun h => ?_, fun h => ?_⟩
  · refine ⟨_, settle_store_of_le (bs := s.regsUpTo x) (by omega), fun k hk => ?_, fun a ha => ?_, rfl⟩
    · have hget := s.get_putBytes_regsUpTo x (Nat.le_add_right _ k) (Nat.add_le_add_left hk _)
      rwa [Nat.add_sub_cancel_left] at hget
    · exact Memory.get_putBytes_outside _ (by omega)
  · exact exists_memOutOfRange (settle_store_of_lt (bs := s.regsUpTo x) (by omega) (by omega))

/-- Settles O39: X + 1 registers are loaded from I up, or the block leaves memory. -/
theorem loadRegistersCopiesFromMemory : Obligations.LoadRegistersCopiesFromMemory := by
  intro x
  refine ⟨decode_encode (.ldVxMem x), fun s => ⟨fun h => ?_, fun h => exists_memOutOfRange (exec_ldVxMem_of_lt h)⟩⟩
  have hread := fun z => s.v.read_writeBlock_bytes s.mem s.index.toNat x z
  refine ⟨_, exec_ldVxMem_of_le h, fun z hz => ?_, fun z hz => ?_, rfl⟩
  · exact (hread z).trans (if_pos hz)
  · exact (hread z).trans (if_neg (Nat.not_le_of_lt hz))

/-- Settles O34: NNN as an address is its number in 16 bits. -/
theorem loadIndexWritesNnn : Obligations.LoadIndexWritesNnn := by
  intro nnn
  refine ⟨decode_encode (.ldI nnn), fun s => ?_⟩
  rw [← addrOf_eq_ofNat]
  rfl

/-- Settles O35: the sum modulo 4096 has a place in 16 bits, and no flag goes with it. -/
theorem addToIndexWrapsAtTwelveBits : Obligations.AddToIndexWrapsAtTwelveBits := fun x =>
  ⟨decode_encode (.addIVx x), fun _ => ⟨_, toNat_wrappedIndex _, rfl⟩⟩

/-- Settles O36: five times V[X] has a place in 16 bits. -/
theorem glyphAddressIsFiveTimesVx : Obligations.GlyphAddressIsFiveTimesVx := fun x =>
  ⟨decode_encode (.ldFVx x), fun s => ⟨_, toNat_glyphAddress (s.getV x), rfl⟩⟩

end Sys2Proof.Machine
end

section
/-! SUPPORT. The display (R100 to R104): the blit as the toggling of a set of cells, DXYN in closed form, and the four
statements made of them. -/

namespace Sys2Proof.Machine

/-! ### Toggling a set of cells -/

/-- `Toggles mask f`: what `f` does to a display and to the collision found so far is to toggle the cells of `mask` in
the grid, and to collide where one of these was lit (R102 to R104). -/
structure Toggles (mask : Nat → Nat → Bool) (f : Frame × Bool → Frame × Bool) : Prop where
  pixel (acc : Frame × Bool) {x y : Nat} (hx : x < 64) (hy : y < 32) :
    (f acc).1.pixel x y = (acc.1.pixel x y != mask x y)
  collides (acc : Frame × Bool) :
    (f acc).2 = true ↔ acc.2 = true ∨ ∃ x y, x < 64 ∧ y < 32 ∧ mask x y = true ∧ acc.1.pixel x y = true

theorem Toggles.id {mask : Nat → Nat → Bool} (h : ∀ x y, mask x y = false) : Toggles mask (fun acc => acc) where
  pixel acc x y _ _ := by simp [h]
  collides acc := by simp [h]

/-- Two sets with no cell in common are toggled one after the other: the first leaves the cells of the second as they
were, so the second collides as on the display before both. -/
theorem Toggles.comp {m₁ m₂ m : Nat → Nat → Bool} {f g : Frame × Bool → Frame × Bool} (hf : Toggles m₁ f)
    (hg : Toggles m₂ g) (hdisj : ∀ x y, m₁ x y = true → m₂ x y = false) (hm : ∀ x y, m x y = (m₁ x y || m₂ x y)) :
    Toggles m (fun acc => g (f acc)) where
  pixel acc x y hx hy := by
    rw [hg.pixel _ hx hy, hf.pixel _ hx hy, hm]
    cases h : m₁ x y with
    | false => simp
    | true => simp [hdisj x y h]
  collides acc := by
    have kept {x y : Nat} (hx : x < 64) (hy : y < 32) (h₂ : m₂ x y = true) :
        (f acc).1.pixel x y = acc.1.pixel x y := by
      have h₁ : m₁ x y = false := Bool.eq_false_iff.mpr fun h => by simp [hdisj x y h] at h₂
      rw [hf.pixel _ hx hy, h₁, Bool.bne_false]
    rw [hg.collides, hf.collides]
    constructor
    · rintro ((h | ⟨x, y, hx, hy, h₁, hp⟩) | ⟨x, y, hx, hy, h₂, hp⟩)
      · exact .inl h
      · exact .inr ⟨x, y, hx, hy, by simp [hm, h₁], hp⟩
      · exact .inr ⟨x, y, hx, hy, by simp [hm, h₂], kept hx hy h₂ ▸ hp⟩
    · rintro (h | ⟨x, y, hx, hy, h, hp⟩)
      · exact .inl (.inl h)
      · rw [hm, Bool.or_eq_true] at h
        obtain h₁ | h₂ := h
        · exact .inl (.inr ⟨x, y, hx, hy, h₁, hp⟩)
        · exact .inr ⟨x, y, hx, hy, h₂, (kept hx hy h₂).trans hp⟩

/-! ### The blit toggles the cells the sprite covers -/

/-- Cell (x, y) is one that column `col` of `row`, drawn from (x0, y0), toggles. -/
def cellCovers (x0 y0 : Nat) (row : Byte) (col x y : Nat) : Bool :=
  decide (x = x0 + col ∧ y = y0) && spriteBit row col

/-- Cell (x, y) is one that the first `n` columns of `row`, drawn from (x0, y0), toggle. -/
def columnsCover (x0 y0 : Nat) (row : Byte) (n x y : Nat) : Bool :=
  decide (y = y0 ∧ x0 ≤ x ∧ x < x0 + n) && spriteBit row (x - x0)

theorem columnsCover_zero (x0 y0 : Nat) (row : Byte) (x y : Nat) : columnsCover x0 y0 row 0 x y = false := by
  rw [columnsCover, decide_eq_false (by omega), Bool.false_and]

theorem columnsCover_succ (x0 y0 : Nat) (row : Byte) (n x y : Nat) :
    columnsCover x0 y0 row (n + 1) x y = (columnsCover x0 y0 row n x y || cellCovers x0 y0 row n x y) := by
  unfold columnsCover cellCovers
  by_cases hx : x = x0 + n
  · subst hx
    simp
  · have hlast : x < x0 + (n + 1) ↔ x < x0 + n := by omega
    simp [hx, hlast]

theorem cellCovers_of_columnsCover {x0 y0 : Nat} {row : Byte} {n x y : Nat} (h : columnsCover x0 y0 row n x y = true) :
    cellCovers x0 y0 row n x y = false := by
  simp only [columnsCover, Bool.and_eq_true, decide_eq_true_eq] at h
  rw [cellCovers, decide_eq_false (by omega), Bool.false_and]

theorem spriteCovers_nil (x0 y0 x y : Nat) : spriteCovers x0 y0 [] x y = false := by
  simp [spriteCovers]

/-- A sprite is its first row, and below it the sprite of the other rows. -/
theorem spriteCovers_cons (x0 y0 : Nat) (row : Byte) (rows : List Byte) (x y : Nat) :
    spriteCovers x0 y0 (row :: rows) x y =
      (columnsCover x0 y0 row 8 x y || spriteCovers x0 (y0 + 1) rows x y) := by
  unfold spriteCovers columnsCover spriteBit
  obtain h | rfl | h := Nat.lt_trichotomy y y0
  · rw [decide_eq_false (by omega), decide_eq_false (by omega), decide_eq_false (by omega)]
    simp only [Bool.false_and, Bool.or_false]
  · simp only [Nat.le_refl, and_true, true_and, Nat.sub_self, List.getD_cons_zero, Nat.not_succ_le_self, and_false,
      decide_false, Bool.false_and, Bool.or_false]
  · have hrow : y - y0 = y - (y0 + 1) + 1 := by omega
    simp only [hrow, List.getD_cons_succ, Nat.le_of_lt h, Nat.succ_le_of_lt h, Nat.ne_of_gt h, and_true, false_and,
      decide_false, Bool.false_and, Bool.false_or]

theorem toggles_blitCell (x0 y : Nat) (row : Byte) (col : Nat) :
    Toggles (cellCovers x0 y row col) (fun acc => Frame.blitCell x0 y row acc col) := by
  unfold Frame.blitCell
  cases hbit : spriteBit row col with
  | false => exact .id fun a b => by simp [cellCovers, hbit]
  | true =>
    simp only [if_true]
    refine ⟨fun acc a b ha hb => ?_, fun acc => ?_⟩
    · have hcell : (a = x0 + col ∧ b = y ∧ x0 + col < 64 ∧ y < 32) ↔ (a = x0 + col ∧ b = y) := by omega
      simp only [Frame.pixel_toggle, cellCovers, hbit, Bool.and_true, hcell]
      by_cases h : a = x0 + col ∧ b = y <;> simp [h]
    · have hgrid (h : acc.1.pixel (x0 + col) y = true) : x0 + col < 64 ∧ y < 32 := by
        refine Decidable.byContradiction fun hout => ?_
        rw [Frame.pixel_outside _ hout] at h
        exact Bool.false_ne_true h
      simp only [cellCovers, hbit, Bool.and_true, Bool.or_eq_true, decide_eq_true_eq]
      refine or_congr_right ⟨fun h => ⟨_, _, (hgrid h).1, (hgrid h).2, ⟨rfl, rfl⟩, h⟩, ?_⟩
      rintro ⟨_, _, _, _, ⟨rfl, rfl⟩, h⟩
      exact h

/-- The first `n` columns of a row, by induction on `n`. -/
theorem toggles_blitCells (x0 y : Nat) (row : Byte) (n : Nat) :
    Toggles (columnsCover x0 y row n) (fun acc => (List.range n).foldl (Frame.blitCell x0 y row) acc) := by
  induction n with
  | zero => exact .id (columnsCover_zero x0 y row)
  | succ n ih =>
    simp only [List.range_succ, List.foldl_append]
    exact ih.comp (toggles_blitCell x0 y row n) (fun _ _ => cellCovers_of_columnsCover) (columnsCover_succ x0 y row n)

theorem toggles_blitRow (x0 y : Nat) (row : Byte) :
    Toggles (columnsCover x0 y row 8) (Frame.blitRow x0 y row) := toggles_blitCells x0 y row 8

/-- The rows of a blit, by induction on the rows: the first is above all the others. -/
theorem toggles_blitRows (x0 y : Nat) (rows : List Byte) :
    Toggles (spriteCovers x0 y rows) (Frame.blitRows x0 y rows) := by
  induction rows generalizing y with
  | nil => exact .id (spriteCovers_nil x0 y)
  | cons row rows ih =>
    refine (toggles_blitRow x0 y row).comp (ih (y + 1)) (fun a b h => ?_) (spriteCovers_cons x0 y row rows)
    simp only [columnsCover, Bool.and_eq_true, decide_eq_true_eq] at h
    rw [spriteCovers, decide_eq_false (by omega), Bool.false_and]

section
variable (fb : Frame) (x0 y0 : Nat) (rows : List Byte)

theorem Frame.pixel_blit {x y : Nat} (hx : x < 64) (hy : y < 32) :
    (fb.blit x0 y0 rows).1.pixel x y = (fb.pixel x y != spriteCovers x0 y0 rows x y) :=
  (toggles_blitRows x0 y0 rows).pixel (fb, false) hx hy

theorem Frame.blit_collides_iff :
    (fb.blit x0 y0 rows).2 = true ↔
      ∃ x y, x < 64 ∧ y < 32 ∧ spriteCovers x0 y0 rows x y = true ∧ fb.pixel x y = true := by
  rw [Frame.blit, (toggles_blitRows x0 y0 rows).collides]
  simp

/-- The same sprite at the same place, twice, is no change. -/
theorem Frame.blit_blit : ((fb.blit x0 y0 rows).1.blit x0 y0 rows).1 = fb := by
  refine Frame.ext_pixel fun x y hx hy => ?_
  rw [Frame.pixel_blit _ _ _ _ hx hy, Frame.pixel_blit _ _ _ _ hx hy]
  cases spriteCovers x0 y0 rows x y <;> simp

/-- The second blit collides where the first lit a cell: on a covered cell that was dark. -/
theorem Frame.blit_blit_collides_iff :
    ((fb.blit x0 y0 rows).1.blit x0 y0 rows).2 = true ↔
      ∃ x y, x < 64 ∧ y < 32 ∧ spriteCovers x0 y0 rows x y = true ∧ fb.pixel x y = false := by
  rw [Frame.blit_collides_iff]
  refine exists₂_congr fun x y => and_congr_right fun hx => and_congr_right fun hy => and_congr_right fun hcov => ?_
  rw [Frame.pixel_blit _ _ _ _ hx hy, hcov]
  simp

end

/-! ### DXYN in closed form -/

theorem flagBit_eq_one_iff (c : Bool) : flagBit c = 1#8 ↔ c = true := by
  cases c <;> decide

section
variable (s : State) (x0 y0 : Byte) (rows : List Byte)

@[simp] theorem State.fb_drawSprite : (s.drawSprite x0 y0 rows).fb = (s.fb.blit x0.toNat y0.toNat rows).1 := rfl
@[simp] theorem State.index_drawSprite : (s.drawSprite x0 y0 rows).index = s.index := rfl
@[simp] theorem State.mem_drawSprite : (s.drawSprite x0 y0 rows).mem = s.mem := rfl

theorem State.getV_vf_drawSprite :
    (s.drawSprite x0 y0 rows).getV vf = flagBit (s.fb.blit x0.toNat y0.toNat rows).2 :=
  State.getV_setV_self _ _ _

theorem State.getV_drawSprite_of_ne {z : Nibble} (hz : z ≠ vf) : (s.drawSprite x0 y0 rows).getV z = s.getV z :=
  State.getV_setV_of_ne _ _ hz.symm

end

section
variable {x y n : Nibble} {s : State}

/-- Rows in range are read whole and drawn at the old V[X] and V[Y] (R42, R101). -/
theorem exec_drw_of_le (h : n.toNat = 0 ∨ s.index.toNat + n.toNat - 1 ≤ 0xFFF) :
    exec (.drw x y n) s =
      .next (s.drawSprite (s.getV x) (s.getV y) (s.mem.bytes s.index.toNat n.toNat)) := by
  rw [exec, execDrw, State.readRange, State.transferAddr, checkRange_ok (by omega)]
  rfl

/-- Of rows that leave memory nothing is drawn (R42, R101). -/
theorem exec_drw_of_lt (h : 0 < n.toNat ∧ 0xFFF < s.index.toNat + n.toNat - 1) :
    exec (.drw x y n) s = .next { s with status := .faulted (.memOutOfRange (max s.index.toNat 0x1000)) } := by
  rw [exec, execDrw, State.readRange, State.transferAddr, checkRange_error h.1 (by omega)]
  rfl

end

end Sys2Proof.Machine

namespace Sys2Proof.Machine

/-- Settles O43: the rows of the blit toggle the cells of the sprite's rows, each once. -/
theorem blitTogglesCoveredPixels : Obligations.BlitTogglesCoveredPixels := fun fb x0 y0 rows =>
  ⟨fun _ _ hx hy => fb.pixel_blit x0 y0 rows hx hy, fb.blit_collides_iff x0 y0 rows⟩

/-- Settles O44: the rows are read and drawn, or the range leaves memory. -/
theorem drawReadsBlitsAndSetsVf : Obligations.DrawReadsBlitsAndSetsVf := by
  intro x y n
  refine ⟨decode_encode (.drw x y n), fun s => ⟨fun h => ?_, fun h => exists_memOutOfRange (exec_drw_of_lt h)⟩⟩
  exact ⟨_, s.mem.bytes s.index.toNat n.toNat, _, exec_drw_of_le h, Memory.length_bytes ..,
    fun k hk => Memory.getElem_bytes _ _ _ k hk, rfl, State.getV_vf_drawSprite ..,
    fun z hz => State.getV_drawSprite_of_ne _ _ _ _ hz, rfl⟩

/-- Settles O45: with X and Y not F the second draw has the coordinates and the rows of the first. -/
theorem drawingTwiceRestoresTheScreen : Obligations.DrawingTwiceRestoresTheScreen := by
  intro x y n s hx hy h
  refine ⟨_, _, exec_drw_of_le h, exec_drw_of_le h, ?_⟩
  simp only [State.fb_drawSprite, State.index_drawSprite, State.mem_drawSprite, State.getV_drawSprite_of_ne _ _ _ _ hx,
    State.getV_drawSprite_of_ne _ _ _ _ hy, State.getV_vf_drawSprite, flagBit_eq_one_iff]
  refine ⟨Frame.blit_blit .., ?_, ?_⟩
  · simp only [Frame.blit_collides_iff, and_comm]
  · simp only [Frame.blit_blit_collides_iff, and_comm]

/-- Settles O42: the display is the blank one, whose pixels are all dark. -/
theorem clearScreenClearsEveryPixel : Obligations.ClearScreenClearsEveryPixel :=
  ⟨decode_encode .cls, fun _ => ⟨_, rfl, fun x y _ _ => Frame.pixel_blank x y, rfl⟩⟩

end Sys2Proof.Machine
end

section
/-! SUPPORT. The key skips and the delivery of a key in closed form, and the five statements made of timer access and
keypad input (R105 to R111). -/

namespace Sys2Proof.Machine

variable {s : State}

/-! ### The key skips -/

section
variable {x : Nibble} (neg : Bool → Bool)

/-- When V[X] is a key, one draw of KeyHeld decides the skip; `neg` is the sense of the instruction (R108, R109). -/
theorem settle_keyOf_of_key {k : Key} (h : (s.getV x).toNat = k.val) :
    settle s ((s.keyOf x).map fun q => (s.drawKeyHeld q).2.skipIf (neg (s.drawKeyHeld q).1)) =
      .next { s with
        pc := s.pc + (if neg (Config.keyHeld s.draws k) then 4#16 else 2#16), draws := s.draws + 1 } := by
  have hk : s.keyOf x = .ok k := (State.keyOf_ok (h ▸ k.isLt)).trans (congrArg Except.ok (Fin.ext h))
  rw [hk]
  rfl

/-- When V[X] is no key, nothing is drawn (R108, R116). -/
theorem settle_keyOf_of_not_key (h : 15 < (s.getV x).toNat) :
    settle s ((s.keyOf x).map fun q => (s.drawKeyHeld q).2.skipIf (neg (s.drawKeyHeld q).1)) =
      .next { s with status := .faulted (.keyOutOfRange (s.getV x)) } := by
  rw [State.keyOf_error (by omega)]
  rfl

end

/-! ### An enabled turn, and the delivery of a key -/

/-- Only a run that has not ended enables a transition (R123). -/
theorem live_of_enabled {a : Turn} {σ : Status} (h : enabled a σ = true) : σ = .running ∨ ∃ x, σ = .waitingKey x := by
  cases σ with
  | running => exact .inl rfl
  | waitingKey x => exact .inr ⟨x, rfl⟩
  | faulted | stopped => cases a <;> cases h

/-- A step whose choice is enabled is that agent's transition, from a state that differs in the schedule alone (R123). -/
theorem step_of_enabled (h : enabled s.takeTurn.1 s.status = true) :
    step s = transition s.takeTurn.1 { s with sched := s.takeTurn.2.sched } := by
  have hturn : step s = turnStep s := by
    obtain hstatus | ⟨x, hstatus⟩ := live_of_enabled h <;> simp only [step, machineStep, hstatus]
  rw [hturn, turnStep, if_pos h, ← State.takeTurn_eq]

theorem toNat_keyByte (k : Key) : (keyByte k).toNat = k.val :=
  Nat.mod_eq_of_lt (Nat.lt_trans k.isLt (by decide))

theorem State.keyDelivered_of_waiting {x : Nibble} (h : s.status = .waitingKey x) (k : Key) :
    s.keyDelivered k =
      { s with v := s.v.set x.toNat (keyByte k) x.isLt, pc := s.pc + 2#16, status := .running } := by
  rw [State.keyDelivered, h]
  rfl

end Sys2Proof.Machine

namespace Sys2Proof.Machine

/-- Settles O46: the instruction is one register write. -/
theorem readDelayTimerCopiesDt : Obligations.ReadDelayTimerCopiesDt := fun x =>
  ⟨decode_encode (.ldVxDt x), fun _ => rfl⟩

/-- Settles O47: each instruction is one write of a timer. -/
theorem setTimersCopyVx : Obligations.SetTimersCopyVx := fun x =>
  ⟨decode_encode (.ldDtVx x), decode_encode (.ldStVx x), fun _ => ⟨rfl, rfl⟩⟩

/-- Settles O48: the two outcomes of reading V[X] as a key; EXA1's sense is the complement of EX9E's. -/
theorem keySkipsFollowTheAnswer : Obligations.KeySkipsFollowTheAnswer := by
  intro x
  refine ⟨decode_encode (.skpVx x), decode_encode (.sknpVx x), fun s => ⟨fun k hk => ⟨?_, ?_⟩, fun h => ⟨?_, ?_⟩⟩⟩
  · exact settle_keyOf_of_key id hk
  · refine (settle_keyOf_of_key not hk).trans ?_
    cases Config.keyHeld s.draws k <;> rfl
  · exact settle_keyOf_of_not_key id h
  · exact settle_keyOf_of_not_key not h

/-- Settles O49: suspending is one write of the status. -/
theorem keyWaitSuspends : Obligations.KeyWaitSuspends := fun x =>
  ⟨decode_encode (.ldVxK x), fun _ => rfl⟩

/-- Settles O50: in a waiting state the delivery is enabled, and it completes the suspended FX0A. -/
theorem deliveredKeyCompletesTheWait : Obligations.DeliveredKeyCompletesTheWait := by
  intro s x k hwait hturn
  have henabled : enabled s.takeTurn.1 s.status = true := by rw [hturn, hwait]; rfl
  refine ⟨keyByte k, toNat_keyByte k, ?_⟩
  rw [step_of_enabled henabled, hturn]
  exact congrArg Host.Outcome.next (State.keyDelivered_of_waiting (s := { s with sched := s.takeTurn.2.sched }) hwait k)

end Sys2Proof.Machine
end

section
/-! SUPPORT. Turns and the timer tick in closed form (R123, R125), what a fault leaves unchanged (R113, R116), many ticks,
and the eight statements on faults, timers and the host made of them. -/

namespace Sys2Proof.Machine

variable {s t : State} {f : FaultReason}

/-! ### Turns of a run that has not ended -/

/-- A run that has not ended takes a turn of the schedule (R123). -/
theorem step_of_live (h : s.status = .running ∨ ∃ x, s.status = .waitingKey x) : step s = turnStep s := by
  obtain h | ⟨x, h⟩ := h <;> simp only [step, machineStep, h]

/-- A choice that is not enabled moves the schedule on, and no more (log entry 1). -/
theorem step_of_not_enabled (hlive : s.status = .running ∨ ∃ x, s.status = .waitingKey x)
    (h : enabled s.takeTurn.1 s.status = false) : step s = .next { s with sched := s.takeTurn.2.sched } := by
  rw [step_of_live hlive, turnStep, h, ← State.takeTurn_eq]
  rfl

/-- The timer clock and the cancellation are enabled until the run ends (R123). -/
theorem enabled_of_live {a : Turn} {σ : Status} (ha : a = .tick ∨ a = .cancel)
    (h : σ = .running ∨ ∃ x, σ = .waitingKey x) : enabled a σ = true := by
  obtain rfl | rfl := ha <;> obtain rfl | ⟨x, rfl⟩ := h <;> rfl

/-! ### The timer tick -/

theorem toNat_countDown (b : Byte) : (countDown b).toNat = b.toNat - 1 := by
  unfold countDown
  split
  · omega
  · bv_omega

/-- A tick in closed form (R125): a timer at 0 stays there. -/
theorem State.tick_eq (s : State) : s.tick =
    { s with
      dt := countDown s.dt, st := countDown s.st
      events := if s.st.toNat = 0 then s.events else s.events ++ [.beep] } := by
  unfold State.tick
  by_cases h : s.st.toNat = 0
  · rw [if_pos h, if_pos h, countDown, countDown, if_pos h]
  · rw [if_neg h, if_neg h]
    rfl

theorem State.status_tick (s : State) : s.tick.status = s.status := by
  rw [State.tick_eq]

theorem State.toNat_dt_tick (s : State) : s.tick.dt.toNat = s.dt.toNat - 1 := by
  rw [State.tick_eq]
  exact toNat_countDown s.dt

theorem State.toNat_st_tick (s : State) : s.tick.st.toNat = s.st.toNat - 1 := by
  rw [State.tick_eq]
  exact toNat_countDown s.st

theorem State.events_tick (s : State) : s.tick.events = s.events ++ List.replicate (min 1 s.st.toNat) .beep := by
  rw [State.tick_eq]
  by_cases h : s.st.toNat = 0
  · simp [h]
  · rw [Nat.min_eq_left (Nat.pos_of_ne_zero h)]
    exact if_neg h

/-! ### What a fault leaves unchanged -/

/-- An instruction that ends in a fault has changed nothing but the status (R116): of the effects, only the taking of a
fault leaves a faulted status. -/
theorem Effect.eq_of_faulted {i : Instr} (h : Effect s i t) (hrun : s.status = .running) (hf : t.status = .faulted f) :
    t = { s with status := .faulted f } := by
  cases h with
  | fault g => cases hf; rfl
  | wait x => cases hf
  | _ => exact Status.noConfusion (hrun.symm.trans hf)

theorem cpuStep_eq_of_faulted (h : cpuStep s = .next t) (hrun : s.status = .running) (hf : t.status = .faulted f) :
    t = { s with status := .faulted f } := by
  rcases cpuStep_cases h with ⟨g, -, rfl⟩ | ⟨op, -, -, rfl⟩ | ⟨op, i, -, -, he⟩
  · cases hf; rfl
  · cases hf; rfl
  · exact (Effect.of_exec he).eq_of_faulted hrun hf

/-- A key that is delivered wakes the run (R111). -/
theorem State.status_keyDelivered {k : Key} (h : enabled (.keyDelivered k) s.status = true) :
    (s.keyDelivered k).status = .running := by
  obtain hs | ⟨x, hs⟩ := live_of_enabled h
  · rw [hs] at h; cases h
  · rw [State.keyDelivered_of_waiting hs]

/-- Only the instruction clock raises a fault (R114, R116). -/
theorem transition_eq_of_faulted {a : Turn} (ha : enabled a s.status = true) (h : transition a s = .next t)
    (hf : t.status = .faulted f) : s.status = .running ∧ t = { s with status := .faulted f } := by
  cases a with
  | cpu => exact ⟨running_of_enabled_cpu ha, cpuStep_eq_of_faulted h (running_of_enabled_cpu ha) hf⟩
  | tick =>
    cases h
    rw [State.status_tick] at hf
    rw [hf] at ha
    cases ha
  | keyDelivered k => cases h; exact Status.noConfusion ((State.status_keyDelivered ha).symm.trans hf)
  | cancel => cases h; cases hf

/-! ### Which handler faults, and when -/

section
variable {r : Result}

theorem false_of_completes_of_faulted (h : r = .next t) (hf : t.status = .faulted f)
    (hr : ∃ u, r = .next u ∧ u.status = .running) : False := by
  obtain ⟨u, hu, hrun⟩ := hr
  cases hu.symm.trans h
  exact Status.noConfusion (hrun.symm.trans hf)

/-- A handler that completes where `P` fails and takes the fault `g` where `P` holds can fault only so. -/
theorem condition_of_faulted {P : Prop} {g : FaultReason} (h : r = .next t) (hf : t.status = .faulted f)
    (completes : ¬ P → ∃ u, r = .next u ∧ u.status = .running)
    (faults : P → r = .next { s with status := .faulted g }) : P ∧ f = g := by
  by_cases hP : P
  · cases (faults hP).symm.trans h
    cases hf
    exact ⟨hP, rfl⟩
  · exact (false_of_completes_of_faulted h hf (completes hP)).elim

end

section
variable (hrun : s.status = .running) (hf : t.status = .faulted f)
include hrun hf

theorem fault_of_exec_ret (h : exec .ret s = .next t) : s.sp.val = 0 ∧ f = .stackUnderflow s.pc :=
  condition_of_faulted h hf (fun hP => ⟨_, exec_ret_of_pos (Nat.pos_of_ne_zero hP), hrun⟩)
    (fun hP => exec_ret_of_empty (by omega))

theorem fault_of_exec_call {nnn : Addr} (h : exec (.call nnn) s = .next t) :
    s.sp.val = 16 ∧ f = .stackOverflow s.pc :=
  condition_of_faulted h hf (fun hP => ⟨_, exec_call_of_lt nnn (by omega), hrun⟩)
    (fun hP => exec_call_of_full nnn (by omega))

theorem fault_of_exec_drw {x y n : Nibble} (h : exec (.drw x y n) s = .next t) :
    (0 < n.toNat ∧ 4096 < s.index.toNat + n.toNat) ∧ f = .memOutOfRange (max s.index.toNat 0x1000) :=
  condition_of_faulted h hf (fun hP => ⟨_, exec_drw_of_le (by omega), hrun⟩) (fun hP => exec_drw_of_lt (by omega))

/-- FX33 and FX55 store a block that is not empty. -/
theorem fault_of_settle_store {bs : List Byte} (hbs : 0 < bs.length)
    (h : settle s ((s.writeRange s.transferAddr bs).map (·.advance 2#16)) = .next t) :
    4096 < s.index.toNat + bs.length ∧ f = .memOutOfRange (max s.index.toNat 0x1000) :=
  condition_of_faulted h hf (fun hP => ⟨_, settle_store_of_le (Nat.le_of_not_lt hP), hrun⟩) (settle_store_of_lt hbs)

theorem fault_of_exec_ldMemVx {x : Nibble} (h : exec (.ldMemVx x) s = .next t) :
    4096 < s.index.toNat + (x.toNat + 1) ∧ f = .memOutOfRange (max s.index.toNat 0x1000) := by
  rw [← s.length_regsUpTo x]
  exact fault_of_settle_store hrun hf (by simp) h

theorem fault_of_exec_ldVxMem {x : Nibble} (h : exec (.ldVxMem x) s = .next t) :
    4096 < s.index.toNat + (x.toNat + 1) ∧ f = .memOutOfRange (max s.index.toNat 0x1000) :=
  condition_of_faulted h hf (fun hP => ⟨_, exec_ldVxMem_of_le (by omega), hrun⟩)
    (fun hP => exec_ldVxMem_of_lt (by omega))

/-- EX9E and EXA1 read V[X] as a key number. -/
theorem fault_of_settle_keyOf {x : Nibble} (neg : Bool → Bool)
    (h : settle s ((s.keyOf x).map fun k => (s.drawKeyHeld k).2.skipIf (neg (s.drawKeyHeld k).1)) = .next t) :
    15 < (s.getV x).toNat ∧ f = .keyOutOfRange (s.getV x) :=
  condition_of_faulted h hf
    (fun hP => ⟨_, settle_keyOf_of_key neg (k := ⟨(s.getV x).toNat, by omega⟩) rfl, hrun⟩)
    (settle_keyOf_of_not_key neg)

end

/-! ### Many ticks -/

theorem toNat_dt_ticks (n : Nat) (s : State) : (ticks n s).dt.toNat = s.dt.toNat - n := by
  induction n generalizing s with
  | zero => rfl
  | succ n ih => rw [ticks, ih, State.toNat_dt_tick]; omega

theorem toNat_st_ticks (n : Nat) (s : State) : (ticks n s).st.toNat = s.st.toNat - n := by
  induction n generalizing s with
  | zero => rfl
  | succ n ih => rw [ticks, ih, State.toNat_st_tick]; omega

/-- Each of ST's counts that is taken beeps once: the first tick's Beep comes before those of the other ticks. -/
theorem events_ticks (n : Nat) (s : State) :
    (ticks n s).events = s.events ++ List.replicate (min n s.st.toNat) .beep := by
  induction n generalizing s with
  | zero => simp [ticks]
  | succ n ih =>
    have hcount : min 1 s.st.toNat + min n (s.st.toNat - 1) = min (n + 1) s.st.toNat := by omega
    rw [ticks, ih, State.toNat_st_tick, State.events_tick, List.append_assoc, List.replicate_append_replicate, hcount]

theorem ticks_eq (n : Nat) (s : State) :
    ticks n s = { s with dt := (ticks n s).dt, st := (ticks n s).st, events := (ticks n s).events } := by
  induction n generalizing s with
  | zero => rfl
  | succ n ih =>
    refine (ih s.tick).trans ?_
    rw [ticks, State.tick_eq]

end Sys2Proof.Machine

namespace Sys2Proof.Machine

/-- Settles O9: the turn taken was the instruction clock's, in a running state, and its Step took the fault. -/
theorem faultEntryIsPrecise : Obligations.FaultEntryIsPrecise := by
  intro s t f h hf
  obtain ⟨hlive, ⟨he, ht⟩ | ⟨-, rfl⟩⟩ := step_cases h
  · rw [State.takeTurn_eq] at ht
    exact transition_eq_of_faulted (s := { s with sched := s.takeTurn.2.sched }) he ht hf
  · rw [State.takeTurn_status] at hf
    obtain hs | ⟨x, hs⟩ := hlive <;> cases hs.symm.trans hf

/-- Settles O10: each of the eight instructions faults where its closed form says so; the others complete. -/
theorem onlyTheListedInstructionsFault : Obligations.OnlyTheListedInstructionsFault := by
  intro i s t f hrun h hf
  cases i with
  | ret => exact .inl ⟨rfl, fault_of_exec_ret hrun hf h⟩
  | call nnn => exact .inr (.inl ⟨nnn, rfl, fault_of_exec_call hrun hf h⟩)
  | drw x y n => exact .inr (.inr (.inl ⟨x, y, n, rfl, and_assoc.mp (fault_of_exec_drw hrun hf h)⟩))
  | ldBVx x =>
    have hbcd : 0 < (bcdDigits (s.getV x)).length := Nat.zero_lt_succ _
    exact .inr (.inr (.inr (.inl ⟨x, rfl, fault_of_settle_store hrun hf hbcd h⟩)))
  | ldMemVx x => exact .inr (.inr (.inr (.inr (.inl ⟨x, .inl rfl, fault_of_exec_ldMemVx hrun hf h⟩))))
  | ldVxMem x => exact .inr (.inr (.inr (.inr (.inl ⟨x, .inr rfl, fault_of_exec_ldVxMem hrun hf h⟩))))
  | skpVx x => exact .inr (.inr (.inr (.inr (.inr ⟨x, .inl rfl, fault_of_settle_keyOf hrun hf id h⟩))))
  | sknpVx x => exact .inr (.inr (.inr (.inr (.inr ⟨x, .inr rfl, fault_of_settle_keyOf hrun hf not h⟩))))
  | ldVxK x => cases h; cases hf
  | _ => exact (false_of_completes_of_faulted h hf ⟨_, rfl, hrun⟩).elim

/-- Settles O51: the four agents' turns in a waiting state; the instruction clock's is not enabled. -/
theorem keyWaitEndsOnlyByKeyOrCancel : Obligations.KeyWaitEndsOnlyByKeyOrCancel := by
  intro s t x hwait h
  obtain ⟨-, ⟨he, ht⟩ | ⟨-, rfl⟩⟩ := step_cases h
  · rw [State.takeTurn_eq] at ht
    generalize s.takeTurn.1 = a at he ht ⊢
    cases a with
    | cpu => exact Status.noConfusion (hwait.symm.trans (running_of_enabled_cpu he))
    | tick =>
      cases ht
      rw [State.tick_eq]
      exact .inl rfl
    | keyDelivered k =>
      cases ht
      exact .inr (.inl ⟨k, rfl, State.status_keyDelivered he⟩)
    | cancel =>
      cases ht
      exact .inr (.inr ⟨rfl, rfl⟩)
  · rw [State.takeTurn_eq]
    exact .inl rfl

/-- Settles O52: the tick is enabled, and each timer counts down to 0. -/
theorem tickCountsDownAndBeeps : Obligations.TickCountsDownAndBeeps := by
  intro s hlive hturn
  refine ⟨countDown s.dt, countDown s.st, toNat_countDown s.dt, toNat_countDown s.st, ?_⟩
  rw [step_of_enabled (enabled_of_live (.inl hturn) hlive), hturn, transition, State.tick_eq]

/-- Settles O53, each part by induction on the number of ticks. -/
theorem manyTicksDrainTheTimers : Obligations.ManyTicksDrainTheTimers := fun n s =>
  ⟨toNat_dt_ticks n s, toNat_st_ticks n s, events_ticks n s, ticks_eq n s⟩

/-- Settles O8: the step of an ended run is its report. -/
theorem endedRunTakesNoStep : Obligations.EndedRunTakesNoStep := by
  intro s
  refine ⟨fun f hs => ?_, fun hs => ?_⟩ <;> rw [step, machineStep, hs]

/-- Settles O54: the cancellation is enabled, and is one write of the status. -/
theorem cancelStopsTheRun : Obligations.CancelStopsTheRun := by
  intro s hlive hturn
  rw [step_of_enabled (enabled_of_live (.inr hturn) hlive), hturn]
  rfl

/-- Settles O55: neither choice is enabled in its state. -/
theorem disabledTransitionIsNotTaken : Obligations.DisabledTransitionIsNotTaken := by
  intro s
  refine ⟨fun k hs hturn => step_of_not_enabled (.inl hs) ?_, fun x hs hturn => step_of_not_enabled (.inr ⟨x, hs⟩) ?_⟩
  · rw [hturn, hs]; rfl
  · rw [hturn, hs]; rfl

end Sys2Proof.Machine
end

section
/-! SUPPORT. The state after initialization and the image Load writes over it (R136, R137). -/

namespace Sys2Proof.Machine

/-- In the font an unlisted address reads as the default FONT (R12, R39). -/
theorem Memory.unlisted_of_lt {a : Nat} (h : a < Memory.defaultFont.length) :
    Memory.unlisted a = Memory.defaultFont[a] := by
  have hbyte : Memory.launchByte a = some Memory.defaultFont[a] := List.getElem?_eq_getElem h
  rw [Memory.unlisted, hbyte]
  rfl

/-- The initialized memory lists nothing (R136). -/
theorem State.get_mem_reset (a : Nat) : State.reset.mem.get a = Memory.unlisted a := rfl

/-- Settles O59: the check on the length decides between the write of the image and the fault. -/
theorem loadPlacesTheImageOrFails : Obligations.LoadPlacesTheImageOrFails := by
  intro b s
  rcases loadImage_cases b s with ⟨e, hfits⟩ | ⟨e, hlong⟩
  · exact ⟨fun _ => ⟨_, e, fun k hk => s.mem.get_putBytes_add 512 hk,
      fun a ha => s.mem.get_putBytes_outside ha, rfl⟩, fun hlong => absurd hfits (Nat.not_le_of_lt hlong)⟩
  · exact ⟨fun hfits => absurd hfits (Nat.not_le_of_lt hlong), fun _ => e⟩

/-- Settles O58: the memory is the font and then INIT_MEM, and the screen is the blank one. -/
theorem resetEstablishesTheLaunchValues : Obligations.ResetEstablishesTheLaunchValues := by
  have registers (x : Nibble) : State.reset.getV x = 0#8 := Vector.getElem_replicate x.isLt
  have stack (k : Nat) (h : k < 16) : State.reset.stack[k] = 0#16 := Vector.getElem_replicate h
  have font (a : Nat) (h : a < Memory.defaultFont.length) : State.reset.mem.get a = Memory.defaultFont[a] :=
    (State.get_mem_reset a).trans (Memory.unlisted_of_lt h)
  have rest (a : Nat) (h : 80 ≤ a) (_ : a < 4096) : State.reset.mem.get a = Config.initMem a :=
    (State.get_mem_reset a).trans (Memory.unlisted_of_le h)
  exact ⟨registers, rfl, rfl, rfl, rfl, stack, font, rfl, rest, rfl, Frame.pixel_blank, rfl, rfl⟩

end Sys2Proof.Machine
end
